-- ==== Sys2Proof/Word.lean ====
section
/-! DEFINITION. The plain machine types: register words, 32-bit words, bytes, register numbers. -/

namespace Sys2Proof

/-- An R register's value: `RW` bits, where `RW` is a parameter (00_scope.md R4, decision D1; log entry 1). -/
abbrev Word (rw : Nat) := BitVec rw

/-- A 32-bit word of memory, of an instruction, or of the floating-point file (R28, R40, R51). -/
abbrev Word32 := BitVec 32

/-- A byte of memory (R40). -/
abbrev Byte := BitVec 8

/-- An R register number, a 5-bit field (R10, R50). -/
abbrev RegNum := BitVec 5

end Sys2Proof
end

