-- ==== Sys2Proof/Syntax.lean ====
section
/-! DEFINITION. The instructions: one constructor per row of spec/opcode_table.json (00_scope.md section 3,
30_encoding.md R54). -/

namespace Sys2Proof

/-- The second operand of a format 3 instruction (R52, R53): a register (`i = 0`, bits 12:5 zero) or a signed immediate
(`i = 1`). -/
inductive Operand2 where
  | reg (rs2 : RegNum)
  | imm (simm13 : BitVec 13)
deriving DecidableEq, Repr

/-- The second operand of LDTWA and STTWA (R52, R84): with `i = 0` bits 12:5 are `imm_asi`; with `i = 1` the address space
identifier is a register of the processor. -/
inductive AltOperand where
  | reg (immAsi : BitVec 8) (rs2 : RegNum)
  | imm (simm13 : BitVec 13)
deriving DecidableEq, Repr

/-- The eight instructions of the spec's scope. -/
inductive Instr where
  /-- CALL (R70): the word displacement. -/
  | call (disp30 : BitVec 30)
  /-- JMPL (R72). -/
  | jmpl (rd rs1 : RegNum) (op2 : Operand2)
  /-- SAVE (R60). -/
  | save (rd rs1 : RegNum) (op2 : Operand2)
  /-- RESTORE (R63). -/
  | restore (rd rs1 : RegNum) (op2 : Operand2)
  /-- LDTW (R81). -/
  | ldtw (rd rs1 : RegNum) (op2 : Operand2)
  /-- LDTWA (R84). -/
  | ldtwa (rd rs1 : RegNum) (op2 : AltOperand)
  /-- STTW (R85). -/
  | sttw (rd rs1 : RegNum) (op2 : Operand2)
  /-- STTWA (R87). -/
  | sttwa (rd rs1 : RegNum) (op2 : AltOperand)
deriving DecidableEq, Repr

end Sys2Proof
end

