-- ==== Sys2Proof/Decode.lean ====
section
/-! DEFINITION. The decoder and the encoder (30_encoding.md). The formats and opcodes are the spec's, from general knowledge
(R51 to R54, decision D16; PRESUMED; log entry 17). -/

namespace Sys2Proof

/-- Why a word is no instruction of the model. -/
inductive DecodeReject where
  /-- Fewer than four bytes: no whole instruction word (R51). -/
  | truncated
  /-- The word matches no row of the opcode table (R55 (a)). -/
  | notInScope
  /-- A format 3 word with `i = 0` and bits 12:5 not all zero, in JMPL, SAVE, RESTORE, LDTW or STTW (R55 (b)). -/
  | reservedBits
deriving DecidableEq, Repr

/-! ## Fields (R52) -/

def fieldRd (w : Word32) : RegNum := w.extractLsb' 25 5
def fieldRs1 (w : Word32) : RegNum := w.extractLsb' 14 5
def fieldRs2 (w : Word32) : RegNum := w.extractLsb' 0 5
def fieldI (w : Word32) : Bool := w.getLsbD 13
def fieldImmAsi (w : Word32) : BitVec 8 := w.extractLsb' 5 8
def fieldSimm13 (w : Word32) : BitVec 13 := w.extractLsb' 0 13
def fieldDisp30 (w : Word32) : BitVec 30 := w.extractLsb' 0 30

/-! ## The opcode map (R54) -/

def maskFormat1 : Word32 := 0xC0000000
def maskFormat3 : Word32 := 0xC1F80000
def matchCall : Word32 := 0x40000000
def matchJmpl : Word32 := 0x81C00000
def matchSave : Word32 := 0x81E00000
def matchRestore : Word32 := 0x81E80000
def matchLdtw : Word32 := 0xC0180000
def matchLdtwa : Word32 := 0xC0980000
def matchSttw : Word32 := 0xC0380000
def matchSttwa : Word32 := 0xC0B80000

/-- R54: a word is the row's instruction when `w AND mask = match`. -/
def hasPattern (w mask pat : Word32) : Bool := w &&& mask == pat

/-- Second operand of JMPL, SAVE, RESTORE, LDTW, STTW (R52, R55 (b)). -/
def decodeOperand2 (w : Word32) : Except DecodeReject Operand2 :=
  if fieldI w then .ok (.imm (fieldSimm13 w))
  else if fieldImmAsi w = 0 then .ok (.reg (fieldRs2 w))
  else .error .reservedBits

/-- Second operand of LDTWA and STTWA (R52, R84): bits 12:5 are `imm_asi`, so none is reserved. -/
def decodeAltOperand (w : Word32) : AltOperand :=
  if fieldI w then .imm (fieldSimm13 w) else .reg (fieldImmAsi w) (fieldRs2 w)

/-- A format 3 instruction with a plain second operand (R52). -/
def decodeFormat3 (mk : RegNum → RegNum → Operand2 → Instr) (w : Word32) : Except DecodeReject Instr :=
  match decodeOperand2 w with
  | .ok op2 => .ok (mk (fieldRd w) (fieldRs1 w) op2)
  | .error e => .error e

/-- The mask of the instruction's row (R54). -/
def rowMask : Instr → Word32
  | .call _ => maskFormat1
  | .jmpl _ _ _ => maskFormat3
  | .save _ _ _ => maskFormat3
  | .restore _ _ _ => maskFormat3
  | .ldtw _ _ _ => maskFormat3
  | .ldtwa _ _ _ => maskFormat3
  | .sttw _ _ _ => maskFormat3
  | .sttwa _ _ _ => maskFormat3

/-- The match value of the instruction's row (R54). -/
def rowMatch : Instr → Word32
  | .call _ => matchCall
  | .jmpl _ _ _ => matchJmpl
  | .save _ _ _ => matchSave
  | .restore _ _ _ => matchRestore
  | .ldtw _ _ _ => matchLdtw
  | .ldtwa _ _ _ => matchLdtwa
  | .sttw _ _ _ => matchSttw
  | .sttwa _ _ _ => matchSttwa

/-- The decoder: total on every 32-bit word (R54, R55). -/
def decodeWord (w : Word32) : Except DecodeReject Instr :=
  if hasPattern w maskFormat1 matchCall then .ok (.call (fieldDisp30 w))
  else if hasPattern w maskFormat3 matchJmpl then decodeFormat3 .jmpl w
  else if hasPattern w maskFormat3 matchSave then decodeFormat3 .save w
  else if hasPattern w maskFormat3 matchRestore then decodeFormat3 .restore w
  else if hasPattern w maskFormat3 matchLdtw then decodeFormat3 .ldtw w
  else if hasPattern w maskFormat3 matchLdtwa then .ok (.ldtwa (fieldRd w) (fieldRs1 w) (decodeAltOperand w))
  else if hasPattern w maskFormat3 matchSttw then decodeFormat3 .sttw w
  else if hasPattern w maskFormat3 matchSttwa then .ok (.sttwa (fieldRd w) (fieldRs1 w) (decodeAltOperand w))
  else .error .notInScope

/-! ## Instruction bytes: one big-endian 32-bit word (R42, R51) -/

/-- The word whose byte at the lowest address is `b0`, most significant first. -/
def bigEndianWord (b0 b1 b2 b3 : Byte) : Word32 := b0 ++ b1 ++ b2 ++ b3

/-- The four bytes of a word, most significant first. -/
def bigEndianBytes (w : Word32) : List Byte :=
  [w.extractLsb' 24 8, w.extractLsb' 16 8, w.extractLsb' 8 8, w.extractLsb' 0 8]

/-- The decoder over bytes in address order: the instruction and the bytes after it. -/
def decodeBytes : List Byte → Except DecodeReject (Instr × List Byte)
  | b0 :: b1 :: b2 :: b3 :: rest =>
    match decodeWord (bigEndianWord b0 b1 b2 b3) with
    | .ok i => .ok (i, rest)
    | .error e => .error e
  | _ => .error .truncated

/-- The instruction the decoder reads from a table row's bits: the low `nbits` bits of `w`, zero above, as one 32-bit word
stored big-endian. -/
def decodeTableWord (nbits w : Nat) : Option Instr :=
  match decodeBytes (bigEndianBytes (BitVec.ofNat 32 (w % 2 ^ nbits))) with
  | .ok (i, _) => some i
  | .error _ => none

/-! ## The encoder, from the same tables (R52, R54) -/

/-- `op`, `rd`, `op3`, `rs1` and the fourteen bits 13:0 of a format 3 word (R52). -/
def format3 (op : BitVec 2) (rd : RegNum) (op3 : BitVec 6) (rs1 : RegNum) (low14 : BitVec 14) : Word32 :=
  op ++ rd ++ op3 ++ rs1 ++ low14

/-- Bits 13:0 for a plain second operand: `i`, then zeros and `rs2`, or `simm13`. -/
def encodeOperand2 : Operand2 → BitVec 14
  | .reg rs2 => 0#1 ++ 0#8 ++ rs2
  | .imm simm13 => 1#1 ++ simm13

/-- Bits 13:0 for LDTWA and STTWA: `i`, then `imm_asi` and `rs2`, or `simm13`. -/
def encodeAltOperand : AltOperand → BitVec 14
  | .reg immAsi rs2 => 0#1 ++ immAsi ++ rs2
  | .imm simm13 => 1#1 ++ simm13

/-- The instruction's word. -/
def encode : Instr → Word32
  | .call disp30 => 1#2 ++ disp30
  | .jmpl rd rs1 op2 => format3 2 rd 0x38 rs1 (encodeOperand2 op2)
  | .save rd rs1 op2 => format3 2 rd 0x3C rs1 (encodeOperand2 op2)
  | .restore rd rs1 op2 => format3 2 rd 0x3D rs1 (encodeOperand2 op2)
  | .ldtw rd rs1 op2 => format3 3 rd 0x03 rs1 (encodeOperand2 op2)
  | .ldtwa rd rs1 op2 => format3 3 rd 0x13 rs1 (encodeAltOperand op2)
  | .sttw rd rs1 op2 => format3 3 rd 0x07 rs1 (encodeOperand2 op2)
  | .sttwa rd rs1 op2 => format3 3 rd 0x17 rs1 (encodeAltOperand op2)

/-- The instruction's four bytes, in address order. -/
def encodeBytes (i : Instr) : List Byte := bigEndianBytes (encode i)

end Sys2Proof
end

