-- ==== Sys2Proof/Config.lean ====
section
/-! DEFINITION. The configuration an implementation and a launch fix (00_scope.md section 4) and the one family of free
values. A `Config` is carried, unchanging, in `State`, so that a statement about every state is about every
configuration (DESIGN CHOICE; log entry 2). -/

namespace Sys2Proof

/-- An interval of byte keys, `base <= k < base + size`. A byte of the data space has its address as its key; a byte at
address `a` of alternate space `n` has the key `n * 2^RW + a`. -/
structure Region where
  base : Nat
  size : Nat
deriving DecidableEq, Repr

/-- What a supplied `altSpace` says of one address space identifier (42_twin_word.md R84, R87: "others are whatever
altSpace defines"; DESIGN CHOICE; log entry 19). -/
inductive AltTarget where
  /-- The identifier addresses space `n`; space 0 is the one data space of LDTW and STTW (R41). -/
  | space (n : Nat)
  /-- The identifier raises a trap of `altSpace`'s own, named by a number. -/
  | trap (id : Nat)
deriving DecidableEq, Repr

/-- The parameters of 00_scope.md section 4 that a launch fixes, but for `RW`, on which the types of the registers depend and
which stands beside this in `State` (R4). -/
structure Config where
  /-- `N_REG_WINDOWS`, 3 to 32 (R1). -/
  nWindows : Nat
  /-- `MAXGL`, 2 to 15 (R2). -/
  maxGl : Nat
  /-- Byte order of a 32-bit word of data (R42, D13). -/
  dataBigEndian : Bool
  /-- The byte addresses backed by memory (R44, D15). -/
  mapped : List Region
  /-- The named program text (R47, R100, R107). -/
  text : List Region
  /-- What LDTWA and STTWA address; `none` is "not supplied" (R84, R87, D18). -/
  altSpace : Option (List (BitVec 8 × AltTarget))
deriving DecidableEq, Repr

/-- The value of the `n`-th draw, at width `rw`: a FREE VALUE, one for each of the 16 registers a RESTORE leaves unrecoverable
(10_state.md R25, 40_window_management.md R63 line 7, I4). It has no body, so nothing can be proved of it (DESIGN CHOICE;
log entry 9). -/
opaque Config.freeWord (rw : Nat) : Nat → BitVec rw

end Sys2Proof
end

