-- ==== Sys2Proof/Machine/State.lean ====
section
/-! DEFINITION. The state of the machine as plain data (10_state.md section 1), the reasons a step stops (00_scope.md R6) and
the launch state the model calls reset (70_reset_and_hazards.md R100). -/

namespace Sys2Proof.Machine

/-- A trap, terminal and precise (60_exceptions.md R94): the step ends, none of the instruction's writes is made and no
handler runs. SAFE: the hardware may go on where the model stops (log entry 4). -/
inductive Trap where
  /-- Raised by LDTW, LDTWA, STTW, STTWA with an odd `rd` (R80, R90). -/
  | illegalInstruction
  /-- Raised by SAVE on a window overflow (R61, R91). -/
  | windowSpill
  /-- Raised by RESTORE on a window underflow (R64, R92). -/
  | windowFill
  /-- Raised by SAVE when the next window is not known to be clean (R62, R93). -/
  | cleanWindow
  /-- Raised by LDTW, LDTWA, STTW, STTWA on an address that is not a multiple of 8 and by JMPL on a target that is not a
  multiple of 4 (R43, R96). -/
  | memAddressNotAligned
  /-- Raised by LDTWA, STTWA where the supplied `altSpace` defines a trap for the address space identifier (R84, R87). -/
  | altSpaceDefined (id : Nat)
deriving DecidableEq, Repr

/-- Why there is no step (R6 "no step at all", R44, R107). SAFE in every case: the model stops where the hardware does
something the spec does not describe. -/
inductive StuckReason where
  /-- Raised by the twin-word instructions: a data byte outside `mapped` (R44). -/
  | dataUnmapped
  /-- Raised by fetch: an instruction byte outside `mapped` (R44). -/
  | fetchUnmapped
  /-- Raised by fetch: an instruction byte outside the named program text (R107). -/
  | fetchOutsideText
  /-- Raised by fetch: `pc` is not a multiple of 4, where R51 has no instruction (log entry 34). -/
  | fetchMisaligned
deriving DecidableEq, Repr

/-- The two ways a step stops the machine: SAFE both, see `Trap` and `StuckReason`. -/
inductive Fault where
  /-- Raised by an instruction, the outcome `Trap(T)` of R6. -/
  | trap (t : Trap)
  /-- Raised by a memory access or by fetch: no step (R44, R107). -/
  | stuck (r : StuckReason)
deriving DecidableEq, Repr

/-- The outcomes `Refused(reason)` of R6. SAFE in every case: the model says nothing where the hardware goes on. -/
inductive Refusal where
  /-- Raised by the dispatcher only, for an instruction with no meaning yet; no arm does. Safe. -/
  | notModelled (mnemonic : String)
  /-- Raised by decoding: the word matches no row of the opcode table (R55 (a)). Safe. -/
  | notInScope
  /-- Raised by decoding: nonzero bits 12:5 with `i = 0` (R55 (b)). Safe. -/
  | reservedBits
  /-- Raised by LDTWA, STTWA when `altSpace` is not supplied, or says nothing of the identifier (R84, R87). Safe. -/
  | alternateSpace
  /-- Raised by CALL, JMPL executed as a delay instruction (R71). Safe. -/
  | transferInDelaySlot
  /-- Raised by STTW, STTWA into the named program text (R47). Safe. -/
  | storeToProgramText
  /-- Raised by SAVE with `CLEANWIN < CANRESTORE` (R62). Safe. -/
  | inconsistentWindowState
deriving DecidableEq, Repr

/-- One "16-register windowed register set" (R1): the eight locals and the eight outs of a window (R14), `rw` bits each. -/
structure WindowRegs (rw : Nat) where
  locals : Vector (Word rw) 8
  outs : Vector (Word rw) 8
deriving DecidableEq, Repr

/-- The memories: one list of byte keys and bytes (`Region` says what a key is), keys strictly rising, no byte listed that
equals `unlistedByte`. -/
abbrev Memory := List Host.Cell

/-- What a byte that is not listed reads as. The spec leaves launch memory arbitrary (R44, I8). DESIGN CHOICE, UNSAFE for
claims about runs from `State.reset` only (log entry 15). -/
def unlistedByte : Byte := 0

/-- A physical register of the R register file, or R[0], which is none (R11, R12, R14). -/
inductive Slot where
  /-- R[0]: no storage. -/
  | zero
  /-- `G[set][k + 1]`. -/
  | global (set : Nat) (k : Fin 7)
  /-- `O[w][k]`. -/
  | out (w : Nat) (k : Fin 8)
  /-- `L[w][k]`. -/
  | loc (w : Nat) (k : Fin 8)
deriving DecidableEq, Repr

/-- The virtual processor and its memory, at register width `rw` (10_state.md section 1). -/
structure Processor (rw : Nat) where
  /-- Configuration, the same in every state of a run (log entry 2). -/
  cfg : Config
  /-- `G[s][1..7]`, set by set (R11, R12). -/
  globals : List (Vector (Word rw) 7)
  /-- `L[w]` and `O[w]`, window by window (R14). -/
  windows : List (WindowRegs rw)
  /-- `CWP` (R17). -/
  cwp : Nat
  /-- `GL` (R24). -/
  gl : Nat
  /-- `CANSAVE` (R20). -/
  canSave : Nat
  /-- `CANRESTORE` (R20). -/
  canRestore : Nat
  /-- `OTHERWIN` (R21). -/
  otherWin : Nat
  /-- `CLEANWIN` (R23). -/
  cleanWin : Nat
  /-- `FW[0..63]` (R28). -/
  fw : Vector Word32 64
  /-- Address of the instruction being executed (R34). -/
  pc : Word rw
  /-- Address of the instruction to execute next (R34). -/
  npc : Word rw
  /-- The processor register that holds the address space identifier of LDTWA and STTWA with `i = 1` (R84, G17; log entry
  37). -/
  asi : BitVec 8
  /-- Memory (R40, R44). -/
  mem : Memory
  /-- The model's own: how many free values have been drawn (R25, I4; log entry 9). -/
  draws : Nat
deriving DecidableEq, Repr

/-- The state of the machine: the configuration argument `RW` (R4) and the processor of that register width. `RW` is the same
in every state of a run. -/
structure State where
  /-- `RW`, the width of an R register, of `pc` and `npc` and of an address, in bits (R4, R34, R40). -/
  rw : Nat
  /-- Everything else. -/
  proc : Processor rw
deriving DecidableEq, Repr

/-- The outcome of an instruction. -/
abbrev Result := Host.Outcome State Fault Refusal

/-- The configuration of the launch state: FIGURE 5-3's eight windows, the rest as 95_test_vectors.md has it unless a vector
says otherwise; every data byte mapped, no program loaded (log entries 16, 21, 22). -/
def State.resetConfig : Config :=
  { nWindows := 8, maxGl := 2, dataBigEndian := true, mapped := [⟨0, 2 ^ 64⟩], text := [], altSpace := none }

/-- The processor of the launch state (`State.reset`). -/
def Processor.reset : Processor 64 :=
  { cfg := State.resetConfig
    globals := List.replicate 3 (Vector.replicate 7 0)
    windows := List.replicate 8 ⟨Vector.replicate 8 0, Vector.replicate 8 0⟩
    cwp := 0
    gl := 0
    canSave := 4
    canRestore := 1
    otherWin := 1
    cleanWin := 7
    fw := Vector.replicate 64 0
    pc := 0x1000
    npc := 0x1004
    asi := 0
    mem := []
    draws := 0 }

/-- The launch state that stands for reset. The spec states no reset value (R36) and asks the premises of R100 of a launch
state: this is the FIGURE 5-3 window state R100 calls typical, at the `pc` of 95_test_vectors.md section 2.2, all other
registers zero, with `RW = 64`, the spec's value for this hardware (R4; log entry 1). DESIGN CHOICE, UNSAFE for claims about
runs from here only (log entry 21). -/
def State.reset : State := ⟨64, Processor.reset⟩

end Sys2Proof.Machine
end

