-- ==== Sys2Proof/Machine/Ops.lean ====
section
/-! DEFINITION. The named operations over registers, windows, memory, the program counters and traps. Every meaning is
written over these. -/

namespace Sys2Proof.Machine

variable {rw : Nat}

/-! ## Windows (10_state.md R14, R17) -/

/-- `(c + 1) mod n`: the window a SAVE moves into. -/
def nextWindow (n c : Nat) : Nat := (c + 1) % n

/-- `(c - 1) mod n`, the mathematical modulo (00_scope.md section 5): the window a RESTORE moves back into. -/
def prevWindow (n c : Nat) : Nat := (c + (n - 1)) % n

/-! ## R registers (R10 to R16) -/

/-- The physical register an R register address names, with `n` windows, current window `cwp` and global level `gl`
(R15, R16). -/
def slotOf (n cwp gl : Nat) (i : RegNum) : Slot :=
  if _h0 : i.toNat = 0 then .zero
  else if _h1 : i.toNat < 8 then .global gl ⟨i.toNat - 1, by omega⟩
  else if _h2 : i.toNat < 16 then .out cwp ⟨i.toNat - 8, by omega⟩
  else if _h3 : i.toNat < 24 then .loc cwp ⟨i.toNat - 16, by omega⟩
  else .out (prevWindow n cwp) ⟨i.toNat - 24, by have := i.isLt; omega⟩

/-- The value of a physical register; R[0] is zero (R12). A window or set the configuration does not have reads zero; no
well-formed state reaches one. -/
def readSlot (s : Processor rw) : Slot → Word rw
  | .zero => 0
  | .global g k => match s.globals[g]? with
    | some v => v[k]
    | none => 0
  | .out w k => match s.windows[w]? with
    | some r => r.outs[k]
    | none => 0
  | .loc w k => match s.windows[w]? with
    | some r => r.locals[k]
    | none => 0

/-- Writes one physical register and no other; a write to R[0] is discarded (R12, R16). -/
def writeSlot (s : Processor rw) (sl : Slot) (v : Word rw) : Processor rw :=
  match sl with
  | .zero => s
  | .global g k => { s with globals := s.globals.modify g (fun r => r.set k v) }
  | .out w k => { s with windows := s.windows.modify w (fun r => { r with outs := r.outs.set k v }) }
  | .loc w k => { s with windows := s.windows.modify w (fun r => { r with locals := r.locals.set k v }) }

/-- The physical register the address `i` names in the state's current window and global set. -/
def regSlot (s : Processor rw) (i : RegNum) : Slot := slotOf s.cfg.nWindows s.cwp s.gl i

/-- `x[i]` (R15). -/
def readReg (s : Processor rw) (i : RegNum) : Word rw := readSlot s (regSlot s i)

/-- `x[i] <- v` (R16). -/
def writeReg (s : Processor rw) (i : RegNum) (v : Word rw) : Processor rw := writeSlot s (regSlot s i) v

/-! ## Moving the window (R60 lines 5 and 6, R63 lines 5 to 7) -/

/-- SAVE's move: `CWP + 1`, `CANSAVE - 1`, `CANRESTORE + 1` (R60, R62). -/
def advanceWindow (s : Processor rw) : Processor rw :=
  { s with
    cwp := nextWindow s.cfg.nWindows s.cwp
    canSave := s.canSave - 1
    canRestore := s.canRestore + 1 }

/-- RESTORE's move: `CWP - 1`, `CANSAVE + 1`, `CANRESTORE - 1` (R63, R65). -/
def retreatWindow (s : Processor rw) : Processor rw :=
  { s with
    cwp := prevWindow s.cfg.nWindows s.cwp
    canSave := s.canSave + 1
    canRestore := s.canRestore - 1 }

/-- Eight drawn values, the draws `n` to `n + 7`. -/
def drawEight (rw n : Nat) : Vector (Word rw) 8 :=
  #v[Config.freeWord rw n, Config.freeWord rw (n + 1), Config.freeWord rw (n + 2), Config.freeWord rw (n + 3),
     Config.freeWord rw (n + 4), Config.freeWord rw (n + 5), Config.freeWord rw (n + 6), Config.freeWord rw (n + 7)]

/-- `havoc L[w][k] ; havoc O[w][k]` for the eight `k` (R25, R63 line 7): 16 fresh free values. -/
def havocWindow (s : Processor rw) (w : Nat) : Processor rw :=
  { s with
    windows := s.windows.modify w (fun _ => ⟨drawEight rw s.draws, drawEight rw (s.draws + 8)⟩)
    draws := s.draws + 16 }

/-! ## Program counters (R34, R71) -/

/-- `pc <- npc ; npc <- npc + 4` (R34). -/
def advancePc (s : Processor rw) : Processor rw := { s with pc := s.npc, npc := s.npc + 4 }

/-- `pc <- npc ; npc <- t`: a delayed control transfer (R71). -/
def delayedJump (s : Processor rw) (t : Word rw) : Processor rw := { s with pc := s.npc, npc := t }

/-- The instruction at `pc` is executed as a delay instruction: `npc != pc + 4` (R71). -/
def inDelaySlot (s : Processor rw) : Bool := s.npc != s.pc + 4

/-! ## Outcomes (R6, R94) -/

/-- The outcome "next state" (R6): the machine goes on, at the register width it has. -/
def goOn (s : Processor rw) : Result := .next ⟨rw, s⟩

/-- Taking a trap: the step ends and nothing of the instruction is done; the spec has no trap entry (R94). -/
def raiseTrap (t : Trap) : Result := .fault (.trap t)

/-- No step (R44). -/
def stuckOn (r : StuckReason) : Result := .fault (.stuck r)

/-! ## Memory (R40, R42, R44) -/

/-- The byte held under a key. -/
def Memory.byteAt : Memory → Nat → Byte
  | [], _ => unlistedByte
  | (a, b) :: rest, k => if a = k then b else Memory.byteAt rest k

/-- Puts a byte under a key, keeping the keys rising and the unlisted byte unlisted. -/
def Memory.put : Memory → Nat → Byte → Memory
  | [], k, v => if v = unlistedByte then [] else [(k, v)]
  | (a, b) :: rest, k, v =>
    if k < a then (if v = unlistedByte then (a, b) :: rest else (k, v) :: (a, b) :: rest)
    else if k = a then (if v = unlistedByte then rest else (k, v) :: rest)
    else (a, b) :: Memory.put rest k v

/-- The canonical form: keys strictly rising, no byte listed that an unlisted key would read as. -/
def Memory.wf : Memory → Bool
  | [] => true
  | (a, b) :: rest => b != unlistedByte && rest.all (fun c => decide (a < c.1)) && Memory.wf rest

/-- The key of the byte at address `a` of a space; space 0 is the data space (R41; log entry 19). -/
def byteKey (space : Nat) (a : Word rw) : Nat := space * 2 ^ rw + a.toNat

/-- The keys of the `n` bytes at `a, a + 1, .., a + n - 1`, each sum modulo `2^RW`, lowest address first (R44). -/
def accessKeys (space : Nat) (a : Word rw) : Nat → List Nat
  | 0 => []
  | n + 1 => byteKey space a :: accessKeys space (a + 1) n

/-- `MemRead` over keys (R44). -/
def memRead (m : Memory) (ks : List Nat) : List Byte := ks.map (Memory.byteAt m)

/-- `MemWrite` over keys, byte by byte in address order (R44). -/
def memWrite : Memory → List Nat → List Byte → Memory
  | m, k :: ks, b :: bs => memWrite (Memory.put m k b) ks bs
  | m, _, _ => m

/-- The key lies in one of the regions. -/
def inRegions (rs : List Region) (k : Nat) : Bool :=
  rs.any (fun r => decide (r.base ≤ k) && decide (k < r.base + r.size))

/-- `mapped(addr, n)` (R44): every byte of the access is backed by memory. -/
def isMapped (s : Processor rw) (ks : List Nat) : Bool := ks.all (inRegions s.cfg.mapped)

/-- The access overlaps the named program text (R47). -/
def hitsText (s : Processor rw) (ks : List Nat) : Bool := ks.any (inRegions s.cfg.text)

/-- `Word32` (R42): a word from four bytes in address order. -/
def word32 (bigEndian : Bool) : List Byte → Word32
  | [b0, b1, b2, b3] => if bigEndian then bigEndianWord b0 b1 b2 b3 else bigEndianWord b3 b2 b1 b0
  | _ => 0

/-- `Bytes32` (R42): the four bytes of a word in address order. -/
def bytes32 (bigEndian : Bool) (w : Word32) : List Byte :=
  if bigEndian then bigEndianBytes w else (bigEndianBytes w).reverse

/-! ## Fetch (R42, R51, R107) and the placing of an instruction -/

/-- The keys of the instruction word at `pc`. -/
def fetchKeys (s : Processor rw) : List Nat := accessKeys 0 s.pc 4

/-- The instruction word at `pc`: big-endian whatever `dataBigEndian` is (R42), from the named program text only (R107). -/
def fetchWord (s : Processor rw) : Except StuckReason Word32 :=
  if s.pc.extractLsb' 0 2 ≠ 0 then .error .fetchMisaligned
  else if !(fetchKeys s).all (inRegions s.cfg.text) then .error .fetchOutsideText
  else if !isMapped s (fetchKeys s) then .error .fetchUnmapped
  else .ok (word32 true (memRead s.mem (fetchKeys s)))

/-- The regions with the four instruction bytes at `a` added, if they were not all in already. -/
def coverWord (rs : List Region) (a : Word rw) : List Region :=
  if (accessKeys 0 a 4).all (inRegions rs) then rs else ⟨byteKey 0 a, 4⟩ :: rs

/-- Loads one instruction word at `pc` from outside the machine: its bytes, and the program text and mapped regions that a
fetch there needs (log entry 22). -/
def placeWord (s : Processor rw) (w : Word32) : Processor rw :=
  { s with
    mem := memWrite s.mem (fetchKeys s) (bigEndianBytes w)
    cfg := { s.cfg with text := coverWord s.cfg.text s.pc, mapped := coverWord s.cfg.mapped s.pc } }

/-- The refusal a rejected word ends the step with (R55). A fetched word is never truncated. -/
def refusalOf : DecodeReject → Refusal
  | .truncated => .notInScope
  | .notInScope => .notInScope
  | .reservedBits => .reservedBits

end Sys2Proof.Machine
end

