-- ==== Sys2Proof/Machine/Flags.lean ====
section
/-! DEFINITION. The machine has no status flag or condition code (10_state.md R37). What it tests instead are the window
conditions of SAVE and RESTORE (40_window_management.md R61, R62, R64) and the alignment of an address (R43). -/

namespace Sys2Proof.Machine

variable {rw : Nat}

/-- `WindowOverflow`: `CANSAVE = 0` (R61; PRESUMED, log entry 6). -/
def windowOverflow (s : Processor rw) : Bool := s.canSave == 0

/-- `WindowUnderflow`: `CANRESTORE = 0` (R64; PRESUMED, log entry 6). -/
def windowUnderflow (s : Processor rw) : Bool := s.canRestore == 0

/-- `CleanWindowNeeded`: `CLEANWIN = CANRESTORE` (R62; PRESUMED, log entry 7). -/
def cleanWindowNeeded (s : Processor rw) : Bool := s.cleanWin == s.canRestore

/-- `CLEANWIN < CANRESTORE`: not a consistent state (R62). -/
def cleanWindowInconsistent (s : Processor rw) : Bool := decide (s.cleanWin < s.canRestore)

/-- A twin-word address is a multiple of 8: `a[2:0] = 000` (R88). -/
def alignedTwin (a : Word rw) : Bool := a.extractLsb' 0 3 == 0

/-- A jump target is a multiple of 4: `t[1:0] = 00` (R72). -/
def alignedTarget (t : Word rw) : Bool := t.extractLsb' 0 2 == 0

end Sys2Proof.Machine
end

