-- ==== Sys2Proof/Machine/Operands.lean ====
section
/-! DEFINITION. Every operand form (30_encoding.md R53, 42_twin_word.md R80, R84, R88). -/

namespace Sys2Proof.Machine

variable {rw : Nat}

/-- The second operand's value: `x[rs2]` or `sext(simm13)` (R53). -/
def operand2Value (s : Processor rw) : Operand2 → Word rw
  | .reg rs2 => readReg s rs2
  | .imm simm13 => simm13.signExtend rw

/-- The second operand's value in LDTWA and STTWA, `imm_asi` set aside (R84). -/
def altOperandValue (s : Processor rw) : AltOperand → Word rw
  | .reg _ rs2 => readReg s rs2
  | .imm simm13 => simm13.signExtend rw

/-- `x[rs1] + op2` modulo `2^RW`: an effective address, a JMPL target, the sum of SAVE and RESTORE (R53). -/
def sumOf (s : Processor rw) (rs1 : RegNum) (op2 : Operand2) : Word rw := readReg s rs1 + operand2Value s op2

/-- The effective address of LDTWA and STTWA (R84, R88). -/
def altSumOf (s : Processor rw) (rs1 : RegNum) (op2 : AltOperand) : Word rw := readReg s rs1 + altOperandValue s op2

/-- The byte displacement of a CALL: `sext(disp30 :: 00)` (R53). -/
def callDisplacement (rw : Nat) (disp30 : BitVec 30) : Word rw := (disp30 ++ 0#2).signExtend rw

/-- The address space identifier: `imm_asi` with `i = 0`, a register of the processor with `i = 1` (R84). -/
def asiOf (s : Processor rw) : AltOperand → BitVec 8
  | .reg immAsi _ => immAsi
  | .imm _ => s.asi

/-- The register-number operand of a pair is odd (R80). -/
def oddPair (rd : RegNum) : Bool := rd.getLsbD 0

/-- The odd-numbered register of the pair whose even register is `rd` (R80). -/
def pairOdd (rd : RegNum) : RegNum := rd + 1

/-- What `altSpace` says of an identifier: nothing when it is not supplied (R84, D18). -/
def altTargetOf (s : Processor rw) (asi : BitVec 8) : Option AltTarget :=
  match s.cfg.altSpace with
  | none => none
  | some table => table.lookup asi

/-- Goes on in the space the identifier selects: refused where `altSpace` says nothing of it, its own trap where it names one
(R84, R87; log entry 19). -/
def inAltSpace (s : Processor rw) (asi : BitVec 8) (k : Nat → Result) : Result :=
  match altTargetOf s asi with
  | none => .refused .alternateSpace
  | some (.trap id) => raiseTrap (.altSpaceDefined id)
  | some (.space n) => k n

end Sys2Proof.Machine
end

