-- ==== Sys2Proof/Machine/Control.lean ====
section
/-! DEFINITION. The procedure call instructions, CALL and JMPL (41_control_transfer.md). -/

namespace Sys2Proof.Machine

/-- The target of a CALL at `pc` (R70 line 2). -/
def callTarget {rw : Nat} (s : Processor rw) (disp30 : BitVec 30) : Word rw := s.pc + callDisplacement rw disp30

/-- CALL (R70): refused as a delay instruction (R71); else its own address goes to R[15] and the target to `npc`. -/
def execCall (disp30 : BitVec 30) (s : State) : Result :=
  if inDelaySlot s.proc then .refused .transferInDelaySlot
  else goOn (delayedJump (writeReg s.proc 15 s.proc.pc) (callTarget s.proc disp30))

/-- JMPL (R72): refused as a delay instruction (R71), trap on a target that is not a multiple of 4; else its own address goes
to `x[rd]` and the target to `npc`. -/
def execJmpl (rd rs1 : RegNum) (op2 : Operand2) (s : State) : Result :=
  if inDelaySlot s.proc then .refused .transferInDelaySlot
  else if !alignedTarget (sumOf s.proc rs1 op2) then raiseTrap .memAddressNotAligned
  else goOn (delayedJump (writeReg s.proc rd s.proc.pc) (sumOf s.proc rs1 op2))

end Sys2Proof.Machine
end

