-- ==== Sys2Proof/Machine/TwinWord.lean ====
section
/-! DEFINITION. The twin-word loads and stores, LDTW, LDTWA, STTW, STTWA (42_twin_word.md). -/

namespace Sys2Proof.Machine

variable {rw : Nat}

/-- The keys of the twin word at `a` of a space: the word at the lowest address, then the word at `a + 4` (R40, R88). -/
def twinKeys (space : Nat) (a : Word rw) : List Nat := accessKeys space a 8

/-- The word at the lowest address (R81 line 5). -/
def twinLow (s : Processor rw) (space : Nat) (a : Word rw) : Word32 :=
  word32 s.cfg.dataBigEndian ((memRead s.mem (twinKeys space a)).take 4)

/-- The word at the highest address (R81 line 5). -/
def twinHigh (s : Processor rw) (space : Nat) (a : Word rw) : Word32 :=
  word32 s.cfg.dataBigEndian ((memRead s.mem (twinKeys space a)).drop 4)

/-- The eight bytes a store of the pair `rd`, `rd + 1` writes: the least significant 32 bits of each (R82, R85 lines 4, 5). -/
def twinBytes (s : Processor rw) (rd : RegNum) : List Byte :=
  bytes32 s.cfg.dataBigEndian ((readReg s rd).extractLsb' 0 32) ++
    bytes32 s.cfg.dataBigEndian ((readReg s (pairOdd rd)).extractLsb' 0 32)

/-- Lines 3 to 8 of R81 at address `a` of a space. -/
def loadTwin (space : Nat) (rd : RegNum) (a : Word rw) (s : Processor rw) : Result :=
  if !alignedTwin a then raiseTrap .memAddressNotAligned
  else if !isMapped s (twinKeys space a) then stuckOn .dataUnmapped
  else
    goOn (advancePc (writeReg (writeReg s rd ((twinLow s space a).zeroExtend rw))
      (pairOdd rd) ((twinHigh s space a).zeroExtend rw)))

/-- Lines 3 to 6 of R85 at address `a` of a space. -/
def storeTwin (space : Nat) (rd : RegNum) (a : Word rw) (s : Processor rw) : Result :=
  if !alignedTwin a then raiseTrap .memAddressNotAligned
  else if !isMapped s (twinKeys space a) then stuckOn .dataUnmapped
  else if hitsText s (twinKeys space a) then .refused .storeToProgramText
  else goOn (advancePc { s with mem := memWrite s.mem (twinKeys space a) (twinBytes s rd) })

/-- LDTW (R81): an odd `rd` traps before anything else (R80, R95). -/
def execLdtw (rd rs1 : RegNum) (op2 : Operand2) (s : State) : Result :=
  if oddPair rd then raiseTrap .illegalInstruction
  else loadTwin 0 rd (sumOf s.proc rs1 op2) s.proc

/-- LDTWA (R84). -/
def execLdtwa (rd rs1 : RegNum) (op2 : AltOperand) (s : State) : Result :=
  if oddPair rd then raiseTrap .illegalInstruction
  else inAltSpace s.proc (asiOf s.proc op2) (fun space => loadTwin space rd (altSumOf s.proc rs1 op2) s.proc)

/-- STTW (R85). -/
def execSttw (rd rs1 : RegNum) (op2 : Operand2) (s : State) : Result :=
  if oddPair rd then raiseTrap .illegalInstruction
  else storeTwin 0 rd (sumOf s.proc rs1 op2) s.proc

/-- STTWA (R87). -/
def execSttwa (rd rs1 : RegNum) (op2 : AltOperand) (s : State) : Result :=
  if oddPair rd then raiseTrap .illegalInstruction
  else inAltSpace s.proc (asiOf s.proc op2) (fun space => storeTwin space rd (altSumOf s.proc rs1 op2) s.proc)

end Sys2Proof.Machine
end

