-- ==== Sys2Proof/Machine/Windows.lean ====
section
/-! DEFINITION. Register window management, SAVE and RESTORE (40_window_management.md), and the layout of the windows around
the current one (10_state.md R19, R22). -/

namespace Sys2Proof.Machine

variable {rw : Nat}

/-- SAVE (R60): the traps of R61 and R62 in the order of R95; else the sum of the old window's operands goes to `x[rd]` of
the new window. -/
def execSave (rd rs1 : RegNum) (op2 : Operand2) (s : State) : Result :=
  if windowOverflow s.proc then raiseTrap .windowSpill
  else if cleanWindowInconsistent s.proc then .refused .inconsistentWindowState
  else if cleanWindowNeeded s.proc then raiseTrap .cleanWindow
  else goOn (advancePc (writeReg (advanceWindow s.proc) rd (sumOf s.proc rs1 op2)))

/-- RESTORE (R63): the trap of R64; else the window left is drawn and the sum of the old window's operands goes to `x[rd]` of
the new window. -/
def execRestore (rd rs1 : RegNum) (op2 : Operand2) (s : State) : Result :=
  if windowUnderflow s.proc then raiseTrap .windowFill
  else goOn (advancePc (writeReg (havocWindow (retreatWindow s.proc) s.proc.cwp) rd (sumOf s.proc rs1 op2)))

/-! ## The layout R22 derives; no instruction reads it -/

/-- Windows `CWP + 1 .. CWP + CANSAVE`: the ones a SAVE can move into. -/
def savableWindows (s : Processor rw) : List Nat := (List.range s.canSave).map (fun i => (s.cwp + 1 + i) % s.cfg.nWindows)

/-- Window `CWP + CANSAVE + 1`: the overlap window, which must remain unused (R19). -/
def overlapWindow (s : Processor rw) : Nat := (s.cwp + s.canSave + 1) % s.cfg.nWindows

/-- Windows `CWP + CANSAVE + 2 .. CWP + CANSAVE + 1 + OTHERWIN`. -/
def otherWindows (s : Processor rw) : List Nat :=
  (List.range s.otherWin).map (fun i => (s.cwp + s.canSave + 2 + i) % s.cfg.nWindows)

/-- Windows `CWP - 1 .. CWP - CANRESTORE`: the ones a RESTORE can move back into. -/
def restorableWindows (s : Processor rw) : List Nat :=
  (List.range s.canRestore).map (fun i => (s.cwp + (s.cfg.nWindows - 1 - i)) % s.cfg.nWindows)

end Sys2Proof.Machine
end

