-- ==== Sys2Proof/Machine/Dispatch.lean ====
section
/-! DEFINITION. One arm per instruction, each one call of its meaning. -/

namespace Sys2Proof.Machine

def exec (i : Instr) (s : State) : Host.Outcome State Fault Refusal :=
  match i with
  | .call disp30 => Sys2Proof.Machine.execCall disp30 s
  | .jmpl rd rs1 op2 => Sys2Proof.Machine.execJmpl rd rs1 op2 s
  | .save rd rs1 op2 => Sys2Proof.Machine.execSave rd rs1 op2 s
  | .restore rd rs1 op2 => Sys2Proof.Machine.execRestore rd rs1 op2 s
  | .ldtw rd rs1 op2 => Sys2Proof.Machine.execLdtw rd rs1 op2 s
  | .ldtwa rd rs1 op2 => Sys2Proof.Machine.execLdtwa rd rs1 op2 s
  | .sttw rd rs1 op2 => Sys2Proof.Machine.execSttw rd rs1 op2 s
  | .sttwa rd rs1 op2 => Sys2Proof.Machine.execSttwa rd rs1 op2 s

end Sys2Proof.Machine
end

