-- ==== Sys2Proof/Machine/Step.lean ====
section
/-! DEFINITION. One step (00_scope.md R6): fetch, decode, execute. -/

namespace Sys2Proof.Machine

/-- One step: stuck where no instruction can be fetched (R44, R107), refused where the word is no instruction (R55), else the
instruction's outcome. -/
def step (s : State) : Host.Outcome State Fault Refusal :=
  match fetchWord s.proc with
  | .error r => stuckOn r
  | .ok w =>
    match decodeWord w with
    | .error e => .refused (refusalOf e)
    | .ok i => exec i s

/-- The state with a table row's instruction loaded where `step` fetches: the low `nbits` bits of `w`, zero above, as the
32-bit word at `pc` (log entry 22). -/
def State.withFetchWord (s : State) (nbits w : Nat) : State :=
  ⟨s.rw, placeWord s.proc (BitVec.ofNat 32 (w % 2 ^ nbits))⟩

end Sys2Proof.Machine
end

