-- ==== Sys2Proof/Machine/Float.lean ====
section
/-! DEFINITION. The floating-point register file's three views of one storage (10_state.md R28 to R32). No instruction of the
spec's scope reads or writes it (R33). A view's register number is the spec's `n` divided by the view's width in words, so
that only the numbers the spec names exist: `F_S[n]`, `F_D[2 n]`, `F_Q[4 n]`. Beyond the printed rows of TABLE 5-2 the
pattern is continued (D21; log entry 23). -/

namespace Sys2Proof.Machine

variable {rw : Nat}

/-- `FS[n] = FW[n]`, `n = 0..31` (R29). -/
def readSingle (s : Processor rw) (n : Fin 32) : Word32 := s.fw[n.val]

/-- `FD[2 n] = FW[2 n] :: FW[2 n + 1]` (R30). -/
def readDouble (s : Processor rw) (n : Fin 32) : BitVec 64 := s.fw[2 * n.val] ++ s.fw[2 * n.val + 1]

/-- `FQ[4 n] = FD[4 n] :: FD[4 n + 2]` (R31). -/
def readQuad (s : Processor rw) (n : Fin 16) : BitVec 128 :=
  readDouble s ⟨2 * n.val, by omega⟩ ++ readDouble s ⟨2 * n.val + 1, by omega⟩

/-- Writes one word of the file. -/
def writeFw (s : Processor rw) (j : Fin 64) (v : Word32) : Processor rw := { s with fw := s.fw.set j v }

/-- `FS[n] <- v`: one word (R32). -/
def writeSingle (s : Processor rw) (n : Fin 32) (v : Word32) : Processor rw := writeFw s ⟨n.val, by omega⟩ v

/-- `FD[2 n] <- v`: two words (R32). -/
def writeDouble (s : Processor rw) (n : Fin 32) (v : BitVec 64) : Processor rw :=
  writeFw (writeFw s ⟨2 * n.val, by omega⟩ (v.extractLsb' 32 32)) ⟨2 * n.val + 1, by omega⟩ (v.extractLsb' 0 32)

/-- `FQ[4 n] <- v`: four words (R32). -/
def writeQuad (s : Processor rw) (n : Fin 16) (v : BitVec 128) : Processor rw :=
  writeDouble (writeDouble s ⟨2 * n.val, by omega⟩ (v.extractLsb' 64 64)) ⟨2 * n.val + 1, by omega⟩ (v.extractLsb' 0 64)

end Sys2Proof.Machine
end

