-- ==== Sys2Proof/Machine/StackView.lean ====
section
/-! DEFINITION. The application-level view of the windows: an infinitely deep stack of frames (10_state.md R26). The model's
level is the finite machine (log entry 3); this is the abstraction R26 offers of it, and what a finite state looks like
through it. -/

namespace Sys2Proof.Machine

variable {rw : Nat}

/-- The stack view's register state: "each frame holding eight locals and eight outs, the ins of a frame being the outs of the
frame below it" (R26). The ins of the bottom frame, which has no frame below it, are kept beside the stack (DESIGN CHOICE; log
entry 3). -/
structure StackState (rw : Nat) where
  globals : List (Vector (Word rw) 7)
  gl : Nat
  /-- The frames, the current one first. -/
  frames : List (WindowRegs rw)
  /-- The ins of the bottom frame. -/
  baseIns : Vector (Word rw) 8
deriving DecidableEq, Repr

/-- The ins of the current frame: the outs of the frame below it. -/
def stackIns (k : StackState rw) : Vector (Word rw) 8 :=
  match k.frames with
  | _ :: below :: _ => below.outs
  | _ => k.baseIns

/-- `x[i]` in the stack view. -/
def stackRead (k : StackState rw) (i : RegNum) : Word rw :=
  match slotOf 1 0 k.gl i with
  | .zero => 0
  | .global g j => match k.globals[g]? with
    | some v => v[j]
    | none => 0
  | .loc _ j => match k.frames with
    | top :: _ => top.locals[j]
    | [] => 0
  | .out _ j =>
    if i.toNat < 16 then
      match k.frames with
      | top :: _ => top.outs[j]
      | [] => 0
    else (stackIns k)[j]

/-- Writes an in register of the current frame: an out register of the frame below it. -/
def stackWriteIn (k : StackState rw) (j : Fin 8) (v : Word rw) : StackState rw :=
  match k.frames with
  | top :: below :: rest => { k with frames := top :: { below with outs := below.outs.set j v } :: rest }
  | _ => { k with baseIns := k.baseIns.set j v }

/-- Changes the current frame. -/
def stackTop (k : StackState rw) (f : WindowRegs rw → WindowRegs rw) : StackState rw :=
  match k.frames with
  | top :: rest => { k with frames := f top :: rest }
  | [] => k

/-- `x[i] <- v` in the stack view. -/
def stackWrite (k : StackState rw) (i : RegNum) (v : Word rw) : StackState rw :=
  match slotOf 1 0 k.gl i with
  | .zero => k
  | .global g j => { k with globals := k.globals.modify g (fun r => r.set j v) }
  | .loc _ j => stackTop k (fun f => { f with locals := f.locals.set j v })
  | .out _ j => if i.toNat < 16 then stackTop k (fun f => { f with outs := f.outs.set j v }) else stackWriteIn k j v

/-- SAVE in the stack view: pushes a frame whose 16 registers are draws, then writes `x[rd]` in it; it never traps (R26). -/
def stackSave (k : StackState rw) (rd : RegNum) (sum : Word rw) (drawn : WindowRegs rw) : StackState rw :=
  stackWrite { k with frames := drawn :: k.frames } rd sum

/-- RESTORE in the stack view: pops the current frame, then writes `x[rd]` in the one below; refused (`none`) in the bottom
frame (R26). -/
def stackRestore (k : StackState rw) (rd : RegNum) (sum : Word rw) : Option (StackState rw) :=
  match k.frames with
  | _ :: below :: rest => some (stackWrite { k with frames := below :: rest } rd sum)
  | _ => none

/-- The registers of a window; zeros for a window that does not exist. -/
def windowRegs (s : Processor rw) (w : Nat) : WindowRegs rw :=
  match s.windows[w]? with
  | some r => r
  | none => ⟨Vector.replicate 8 0, Vector.replicate 8 0⟩

/-- Window `w` and the `depth` windows below it, going down modulo `N`. -/
def framesFrom (s : Processor rw) (w : Nat) : Nat → List (WindowRegs rw)
  | 0 => [windowRegs s w]
  | depth + 1 => windowRegs s w :: framesFrom s (prevWindow s.cfg.nWindows w) depth

/-- The window `depth + 1` below `w`: the one whose outs are the ins of the bottom frame. -/
def windowBelow (n w : Nat) : Nat → Nat
  | 0 => prevWindow n w
  | depth + 1 => windowBelow n (prevWindow n w) depth

/-- What a state looks like to application software: the current window and the `CANRESTORE` windows a RESTORE can move back
into are the frames (R22, R26). -/
def stackView (s : Processor rw) : StackState rw :=
  { globals := s.globals
    gl := s.gl
    frames := framesFrom s s.cwp s.canRestore
    baseIns := (windowRegs s (windowBelow s.cfg.nWindows s.cwp s.canRestore)).outs }

end Sys2Proof.Machine
end

