-- ==== Sys2Proof/WellFormed.lean ====
section
/-! DEFINITION. What software must supply for an instruction to be a legal one (R80, R104). The field widths are in the
types of `Instr`; what is left is the even register number of a register pair. -/

namespace Sys2Proof

/-- The number names a register pair: its least significant bit is 0 (R80: one of the 16 pairs (0,1), (2,3), .., (30,31)). -/
def RegNum.evenPair (rd : RegNum) : Bool := !rd.getLsbD 0

/-- The one rule on the form of an instruction that its field widths do not already give: the register-number operand of
LDTW, LDTWA, STTW and STTWA is even (R80, R104). An instruction that breaks it still decodes, and traps (R90). -/
def Instr.wf : Instr → Bool
  | .call _ => true
  | .jmpl _ _ _ => true
  | .save _ _ _ => true
  | .restore _ _ _ => true
  | .ldtw rd _ _ => RegNum.evenPair rd
  | .ldtwa rd _ _ => RegNum.evenPair rd
  | .sttw rd _ _ => RegNum.evenPair rd
  | .sttwa rd _ _ => RegNum.evenPair rd

end Sys2Proof
end

