-- ==== Sys2Proof/Safety.lean ====
section
/-! DEFINITION. What claims are stated in: well-formed states, the launch premises of 70_reset_and_hazards.md R100, frames, and
the end of a run (R107). -/

namespace Sys2Proof.Machine

variable {rw : Nat}

/-! ## Launch premises (R100) -/

/-- `ParamsInRange` (R1, R2, R4): `RW`, `N_REG_WINDOWS` and `MAXGL`. -/
abbrev ParamsInRange (rw : Nat) (c : Config) : Prop :=
  32 ≤ rw ∧ 3 ≤ c.nWindows ∧ c.nWindows ≤ 32 ∧ 2 ≤ c.maxGl ∧ c.maxGl ≤ 15

/-- `WindowStateConsistent` (R21). -/
abbrev WindowStateConsistent (s : Processor rw) : Prop := s.canSave + s.canRestore + s.otherWin = s.cfg.nWindows - 2

/-- `CleanWinConsistent` (R62, R100; the upper bound: log entry 38). -/
abbrev CleanWinConsistent (s : Processor rw) : Prop := s.canRestore ≤ s.cleanWin ∧ s.cleanWin ≤ s.cfg.nWindows - 1

/-- `PcAligned` (R34, R100): `pc` and `npc` are multiples of 4. -/
abbrev PcAligned (s : Processor rw) : Prop := s.pc.toNat % 4 = 0 ∧ s.npc.toNat % 4 = 0

/-- `ProgramTextMapped` (R100): the program's byte range is mapped. -/
def ProgramTextMapped (c : Config) : Prop := ∀ k, inRegions c.text k = true → inRegions c.mapped k = true

/-- Every value the spec can represent: the parameters in range, one storage for each register the configuration has, `CWP`
in `0..N-1` and `GL` in `0..MAXGL` (R1, R2, R4, R11, R14, R17, R24, D4; log entry 33), memory in its canonical form. -/
abbrev Processor.wf (s : Processor rw) : Prop :=
  ParamsInRange rw s.cfg ∧ s.globals.length = s.cfg.maxGl + 1 ∧ s.windows.length = s.cfg.nWindows ∧
    s.cwp < s.cfg.nWindows ∧ s.gl ≤ s.cfg.maxGl ∧ Memory.wf s.mem = true

/-- The window counters as privileged software must have set them (R100, R101). -/
abbrev WindowsReady (s : Processor rw) : Prop := WindowStateConsistent s ∧ CleanWinConsistent s

/-- A launch state: the premises of R100, all of them and no more. `NoFaultRecorded` holds of every state: a trap or a refusal
leaves none. -/
def Launch (s : Processor rw) : Prop := s.wf ∧ WindowsReady s ∧ PcAligned s ∧ ProgramTextMapped s.cfg

/-- What R100 adds for a claim about a whole program: the launch is not inside a delay instruction. -/
def ProgramLaunch (s : Processor rw) : Prop := Launch s ∧ s.npc = s.pc + 4

/-! ## Frames -/

/-- Every physical R register other than those listed has the same value. -/
def RegsSameBut (s t : Processor rw) (changed : List Slot) : Prop := ∀ sl, sl ∉ changed → readSlot t sl = readSlot s sl

/-- Every byte other than those under the listed keys has the same value. -/
def BytesSameBut (s t : Processor rw) (changed : List Nat) : Prop :=
  ∀ k, k ∉ changed → Memory.byteAt t.mem k = Memory.byteAt s.mem k

/-- The window pointer and the two counters SAVE and RESTORE move are unchanged. -/
def WindowUnmoved (s t : Processor rw) : Prop := t.cwp = s.cwp ∧ t.canSave = s.canSave ∧ t.canRestore = s.canRestore

/-- The state no instruction of the spec's scope writes: the configuration, `GL`, `OTHERWIN`, `CLEANWIN`, the floating-point
file and the address space identifier register (R24, R33, R62, R65, R97). -/
def FixedStateSame (s t : Processor rw) : Prop :=
  t.cfg = s.cfg ∧ t.gl = s.gl ∧ t.otherWin = s.otherWin ∧ t.cleanWin = s.cleanWin ∧ t.fw = s.fw ∧ t.asi = s.asi

/-- The two program counters after an instruction that is not a control transfer (R34). -/
def PcAdvanced (s t : Processor rw) : Prop := t.pc = s.npc ∧ t.npc = s.npc + 4

/-- The 16 registers of a window (R25). -/
def windowSlots (w : Nat) : List Slot := (List.finRange 8).map (Slot.loc w) ++ (List.finRange 8).map (Slot.out w)

/-- The configuration has the physical register (R11, R14). -/
def SlotExists (c : Config) : Slot → Prop
  | .zero => False
  | .global g _ => g ≤ c.maxGl
  | .out w _ => w < c.nWindows
  | .loc w _ => w < c.nWindows

/-- The space an `altSpace` identifier selects is `n`. -/
def AltSpaceIs (s : Processor rw) (op2 : AltOperand) (n : Nat) : Prop := altTargetOf s (asiOf s op2) = some (.space n)

/-! ## The effects of the twin-word instructions, said without the meanings' own operations -/

/-- The 32-bit word at address `a` of a space, byte by byte (R40, R42). -/
def wordAt (s : Processor rw) (space : Nat) (a : Word rw) : Word32 :=
  word32 s.cfg.dataBigEndian
    [Memory.byteAt s.mem (byteKey space a), Memory.byteAt s.mem (byteKey space (a + 1)),
     Memory.byteAt s.mem (byteKey space (a + 2)), Memory.byteAt s.mem (byteKey space (a + 3))]

/-- From `s` to `t` the pair `rd`, `rd + 1` was loaded from the twin word at `a` and nothing else changed but the program
counters (R81, R82, R89). -/
def LoadsTwin (s t : Processor rw) (space : Nat) (rd : RegNum) (a : Word rw) : Prop :=
  (rd ≠ 0 → readReg t rd = (wordAt s space a).zeroExtend rw) ∧
    readReg t (rd + 1) = (wordAt s space (a + 4)).zeroExtend rw ∧
    RegsSameBut s t [regSlot s rd, regSlot s (rd + 1)] ∧ BytesSameBut s t [] ∧ PcAdvanced s t ∧ WindowUnmoved s t ∧
    FixedStateSame s t ∧ t.draws = s.draws

/-- From `s` to `t` the low 32 bits of the pair `rd`, `rd + 1` were stored to the twin word at `a` and nothing else changed
but the program counters (R82, R85). -/
def StoresTwin (s t : Processor rw) (space : Nat) (rd : RegNum) (a : Word rw) : Prop :=
  wordAt t space a = (readReg s rd).extractLsb' 0 32 ∧
    wordAt t space (a + 4) = (readReg s (rd + 1)).extractLsb' 0 32 ∧
    BytesSameBut s t (twinKeys space a) ∧ RegsSameBut s t [] ∧ PcAdvanced s t ∧ WindowUnmoved s t ∧
    FixedStateSame s t ∧ t.draws = s.draws

/-- The instruction stores the pair `rd` to the twin word at `a` of a space (R85, R87), where it completes. -/
def StoresAt (i : Instr) (s : Processor rw) (space : Nat) (rd : RegNum) (a : Word rw) : Prop :=
  (∃ rs1 op2, i = .sttw rd rs1 op2 ∧ space = 0 ∧ a = sumOf s rs1 op2) ∨
    (∃ rs1 op2, i = .sttwa rd rs1 op2 ∧ AltSpaceIs s op2 space ∧ a = altSumOf s rs1 op2)

/-- The instruction loads the pair `rd` from the twin word at `a` of a space (R81, R84), where it completes. -/
def LoadsAt (i : Instr) (s : Processor rw) (space : Nat) (rd : RegNum) (a : Word rw) : Prop :=
  (∃ rs1 op2, i = .ldtw rd rs1 op2 ∧ space = 0 ∧ a = sumOf s rs1 op2) ∨
    (∃ rs1 op2, i = .ldtwa rd rs1 op2 ∧ AltSpaceIs s op2 space ∧ a = altSumOf s rs1 op2)

/-! ## The end of a run (R107) -/

/-- `pc = endPc` and `npc = endPc + 4`: completion. The end address is a number, so that a claim names it once whatever `RW`
is. -/
def atEnd (endPc : Nat) (s : State) : Bool := s.proc.pc.toNat == endPc && s.proc.npc == s.proc.pc + 4

/-- How a run ends: completion is the only ending that counts as such; the others refute a claim of completion. -/
inductive RunEnd where
  | completed (s : State)
  | faulted (f : Fault)
  | refused (r : Refusal)
  /-- The step allowance ran out; not an ending of the spec's. -/
  | unfinished (s : State)
deriving DecidableEq, Repr

/-- Runs until completion at `endPc`, a stop, or the end of the step allowance. The instruction at `endPc` is not executed. -/
def runTo (endPc : Nat) : Nat → State → RunEnd
  | 0, s => if atEnd endPc s then .completed s else .unfinished s
  | n + 1, s =>
    if atEnd endPc s then .completed s
    else match step s with
      | .next t => runTo endPc n t
      | .fault f => .faulted f
      | .refused r => .refused r

end Sys2Proof.Machine
end

