-- ==== Sys2Proof/Certificates/Slice0/Obligations.lean ====
section
/-! DEFINITION. The statements for the provers, family by family, each with the rule of spec/ it formalises. A clause that
rests on a line the spec marks as its own decision or as general knowledge says so and names the log entry. -/

open Sys2Proof Sys2Proof.Machine

/-! ## R registers and windows (10_state.md) -/

/-- R15: what each of the 32 R addresses reads, in terms of the stored registers. -/
def Obligations.RegisterAddressReads : Prop :=
  ∀ (rw : Nat) (s : Processor rw), s.wf →
    readReg s 0 = 0 ∧
    (∀ (i : RegNum) (k : Fin 7), i.toNat = k.val + 1 → (s.globals[s.gl]?).map (fun r => r[k]) = some (readReg s i)) ∧
    (∀ (i : RegNum) (k : Fin 8), i.toNat = k.val + 8 →
      (s.windows[s.cwp]?).map (fun r => r.outs[k]) = some (readReg s i)) ∧
    (∀ (i : RegNum) (k : Fin 8), i.toNat = k.val + 16 →
      (s.windows[s.cwp]?).map (fun r => r.locals[k]) = some (readReg s i)) ∧
    (∀ (i : RegNum) (k : Fin 8), i.toNat = k.val + 24 →
      (s.windows[(s.cwp + s.cfg.nWindows - 1) % s.cfg.nWindows]?).map (fun r => r.outs[k]) = some (readReg s i))

/-- R16: a write changes the one physical register the address names (R15), the five ranges one by one, and no other; it is
read back at its own address and at no other; address 0 writes nothing. -/
def Obligations.RegisterAddressWrites : Prop :=
  ∀ (rw : Nat) (s : Processor rw) (i : RegNum) (v : Word rw), s.wf →
    writeReg s 0 v = s ∧
    (∀ k : Fin 7, i.toNat = k.val + 1 →
      readSlot (writeReg s i v) (.global s.gl k) = v ∧ RegsSameBut s (writeReg s i v) [.global s.gl k]) ∧
    (∀ k : Fin 8, i.toNat = k.val + 8 →
      readSlot (writeReg s i v) (.out s.cwp k) = v ∧ RegsSameBut s (writeReg s i v) [.out s.cwp k]) ∧
    (∀ k : Fin 8, i.toNat = k.val + 16 →
      readSlot (writeReg s i v) (.loc s.cwp k) = v ∧ RegsSameBut s (writeReg s i v) [.loc s.cwp k]) ∧
    (∀ k : Fin 8, i.toNat = k.val + 24 →
      readSlot (writeReg s i v) (.out ((s.cwp + s.cfg.nWindows - 1) % s.cfg.nWindows) k) = v ∧
        RegsSameBut s (writeReg s i v) [.out ((s.cwp + s.cfg.nWindows - 1) % s.cfg.nWindows) k]) ∧
    (i ≠ 0 → readReg (writeReg s i v) i = v) ∧
    (∀ j : RegNum, j ≠ i → readReg (writeReg s i v) j = readReg s j)

/-- R12, with the model's choices of what else the instructions do (log entries 7, 9, 11, 14, 26): R[0] reads zero in every
global set, a write to it changes nothing, and an instruction that writes it still does everything else it does. -/
def Obligations.GlobalZeroReadsZero : Prop :=
  ∀ (rw : Nat) (s : Processor rw) (g : Nat) (v : Word rw) (rs1 : RegNum) (op2 : Operand2),
    readReg { s with gl := g } 0 = 0 ∧ writeReg { s with gl := g } 0 v = { s with gl := g } ∧
    (∀ t : Processor rw, exec (.save 0 rs1 op2) ⟨rw, s⟩ = .next ⟨rw, t⟩ →
      t.cwp = nextWindow s.cfg.nWindows s.cwp ∧ RegsSameBut s t []) ∧
    (∀ t : Processor rw, exec (.restore 0 rs1 op2) ⟨rw, s⟩ = .next ⟨rw, t⟩ →
      t.cwp = prevWindow s.cfg.nWindows s.cwp ∧ RegsSameBut s t (windowSlots s.cwp)) ∧
    (∀ t : Processor rw, exec (.jmpl 0 rs1 op2) ⟨rw, s⟩ = .next ⟨rw, t⟩ → t.npc = sumOf s rs1 op2 ∧ RegsSameBut s t []) ∧
    ((sumOf s rs1 op2).toNat % 8 ≠ 0 → exec (.ldtw 0 rs1 op2) ⟨rw, s⟩ = .fault (.trap .memAddressNotAligned))

/-- R18: an out address before the window is advanced and the in address 16 above it after name one register, and read the
same; an in address before the window is restored and the out address 16 below it after name one register, and read the
same. -/
def Obligations.AdjacentWindowsOverlap : Prop :=
  ∀ (rw : Nat) (s : Processor rw) (i : RegNum), s.cwp < s.cfg.nWindows →
    (8 ≤ i.toNat → i.toNat ≤ 15 →
      regSlot (advanceWindow s) (i + 16) = regSlot s i ∧ readReg (advanceWindow s) (i + 16) = readReg s i) ∧
    (24 ≤ i.toNat →
      regSlot (retreatWindow s) (i - 16) = regSlot s i ∧ readReg (retreatWindow s) (i - 16) = readReg s i) ∧
    (advanceWindow s).cwp = (s.cwp + 1) % s.cfg.nWindows ∧
    (retreatWindow s).cwp < s.cfg.nWindows ∧ ((retreatWindow s).cwp + 1) % s.cfg.nWindows = s.cwp

/-- R18 through an instruction: what SAVE makes visible at address `o + 16` is what stood at `o`, unless `rd` writes it. -/
def Obligations.OutsBecomeInsOnSave : Prop :=
  ∀ (rw : Nat) (s t : Processor rw) (rd rs1 o : RegNum) (op2 : Operand2), s.wf →
    exec (.save rd rs1 op2) ⟨rw, s⟩ = .next ⟨rw, t⟩ →
    8 ≤ o.toNat → o.toNat ≤ 15 → rd ≠ o + 16 → readReg t (o + 16) = readReg s o

/-- R27: the two R registers of fixed use. R[0] is always zero; CALL writes its own address into R[15]; R[15] is otherwise an
ordinary out register, read and written like any other, and is R[31] of the next window. -/
def Obligations.FixedUseRegisters : Prop :=
  ∀ (rw : Nat) (s : Processor rw), s.wf →
    readReg s 0 = 0 ∧
    (∀ d t, exec (.call d) ⟨rw, s⟩ = .next ⟨rw, t⟩ → readReg t 15 = s.pc) ∧
    (∀ v, readReg (writeReg s 15 v) 15 = v) ∧
    regSlot s 15 = slotOf s.cfg.nWindows (nextWindow s.cfg.nWindows s.cwp) s.gl 31

/-- R11: an instruction changes no register of a global set that GL does not select, and no R address reads or writes one. -/
def Obligations.DisabledGlobalSetsKept : Prop :=
  ∀ (rw : Nat) (s : Processor rw) (g : Nat) (k : Fin 7), g ≠ s.gl →
    (∀ i t, exec i ⟨rw, s⟩ = .next ⟨rw, t⟩ → t.gl = s.gl ∧ readSlot t (.global g k) = readSlot s (.global g k)) ∧
    (∀ (j : RegNum) (v : Word rw), readReg (writeSlot s (.global g k) v) j = readReg s j ∧
      readSlot (writeReg s j v) (.global g k) = readSlot s (.global g k))

/-- R3, R12: the R registers, counted on the storage. The registers `SlotExists` names are finitely many, each once; with one
R[0] a global set, which is counted and has no storage, they are the number the rule gives, 72 to 640 of them. They are the
registers an R address other than 0 can name. Each holds a value of its own: a write to it is read back and changes no other;
there is no storage beside them, so a write anywhere else changes nothing. -/
def Obligations.RegisterCount : Prop :=
  ∀ (rw : Nat) (s : Processor rw), s.wf →
    (∃ l : List Slot, l.Nodup ∧ (∀ sl, sl ∈ l ↔ SlotExists s.cfg sl) ∧
      l.length + (s.cfg.maxGl + 1) = s.cfg.nWindows * 16 + (s.cfg.maxGl + 1) * 8 ∧
      72 ≤ l.length + (s.cfg.maxGl + 1) ∧ l.length + (s.cfg.maxGl + 1) ≤ 640) ∧
    (∀ sl, SlotExists s.cfg sl ↔ ∃ (cwp gl : Nat) (i : RegNum), cwp < s.cfg.nWindows ∧ gl ≤ s.cfg.maxGl ∧ i ≠ 0 ∧
      regSlot { s with cwp := cwp, gl := gl } i = sl) ∧
    (∀ (sl : Slot) (v : Word rw), SlotExists s.cfg sl →
      readSlot (writeSlot s sl v) sl = v ∧ RegsSameBut s (writeSlot s sl v) [sl]) ∧
    (∀ (sl : Slot) (v : Word rw), ¬ SlotExists s.cfg sl → writeSlot s sl v = s)

/-- R22 (the spec's own derivation from FIGURE 5-3): the current window, the savable windows, the overlap window, the OTHERWIN
windows and the restorable windows are all the windows, each once. -/
def Obligations.WindowLayoutCoversEachWindowOnce : Prop :=
  ∀ (rw : Nat) (s : Processor rw), s.wf → WindowStateConsistent s →
    (s.cwp :: (savableWindows s ++ overlapWindow s :: (otherWindows s ++ restorableWindows s))).Perm
      (List.range s.cfg.nWindows)

/-! ## Floating-point registers (10_state.md section 6) -/

/-- R29 to R31: the three views read the words the rules give them (beyond TABLE 5-2's printed rows D21; log entry 23). -/
def Obligations.FloatViewsAlias : Prop :=
  ∀ (rw : Nat) (s : Processor rw),
    (∀ n : Fin 32, readSingle s n = s.fw[n.val]) ∧
    (∀ n : Fin 32, (readDouble s n).extractLsb' 32 32 = s.fw[2 * n.val] ∧
      (readDouble s n).extractLsb' 0 32 = s.fw[2 * n.val + 1]) ∧
    (∀ n : Fin 16, (readQuad s n).extractLsb' 64 64 = readDouble s ⟨2 * n.val, by omega⟩ ∧
      (readQuad s n).extractLsb' 0 64 = readDouble s ⟨2 * n.val + 1, by omega⟩)

/-- R32: a write through a view writes exactly the words of that view and is read back; every other word is unchanged. -/
def Obligations.FloatWritesTouchTheirWords : Prop :=
  ∀ (rw : Nat) (s : Processor rw),
    (∀ (n : Fin 32) (v : Word32), readSingle (writeSingle s n v) n = v ∧
      ∀ j : Fin 64, j.val ≠ n.val → (writeSingle s n v).fw[j] = s.fw[j]) ∧
    (∀ (n : Fin 32) (v : BitVec 64), readDouble (writeDouble s n v) n = v ∧
      ∀ j : Fin 64, j.val / 2 ≠ n.val → (writeDouble s n v).fw[j] = s.fw[j]) ∧
    (∀ (n : Fin 16) (v : BitVec 128), readQuad (writeQuad s n v) n = v ∧
      ∀ j : Fin 64, j.val / 4 ≠ n.val → (writeQuad s n v).fw[j] = s.fw[j])

/-- R33: no instruction of the scope reads or writes the floating-point file: with another file in its place every
instruction does the same and leaves it. -/
def Obligations.FloatFileNeitherReadNorWritten : Prop :=
  ∀ (i : Instr) (rw : Nat) (s : Processor rw) (f : Vector Word32 64),
    (∀ t : Processor rw, exec i ⟨rw, s⟩ = .next ⟨rw, t⟩ →
      exec i ⟨rw, { s with fw := f }⟩ = .next ⟨rw, { t with fw := f }⟩ ∧ t.fw = s.fw) ∧
    (∀ r, exec i ⟨rw, s⟩ = .fault r → exec i ⟨rw, { s with fw := f }⟩ = .fault r) ∧
    (∀ r, exec i ⟨rw, s⟩ = .refused r → exec i ⟨rw, { s with fw := f }⟩ = .refused r)

/-! ## Operands and encoding (30_encoding.md) -/

/-- R53 (general knowledge; log entry 17): the operand forms, as signed integers. -/
def Obligations.OperandFormsSignExtend : Prop :=
  ∀ (rw : Nat) (s : Processor rw) (rs2 : RegNum) (asi : BitVec 8) (simm13 : BitVec 13) (disp30 : BitVec 30), 32 ≤ rw →
    operand2Value s (.reg rs2) = readReg s rs2 ∧ altOperandValue s (.reg asi rs2) = readReg s rs2 ∧
    (operand2Value s (.imm simm13)).toInt = simm13.toInt ∧ (altOperandValue s (.imm simm13)).toInt = simm13.toInt ∧
    (callDisplacement rw disp30).toInt = 4 * disp30.toInt ∧
    asiOf s (.reg asi rs2) = asi ∧ asiOf s (.imm simm13) = s.asi

/-- R52, R54 (general knowledge; log entry 17): every instruction, every operand value, comes back from its word and from its
four bytes with the bytes after them untouched. -/
def Obligations.DecodeOfEncode : Prop :=
  ∀ (i : Instr) (rest : List Byte), decodeWord (encode i) = .ok i ∧ decodeBytes (encodeBytes i ++ rest) = .ok (i, rest)

/-- R52, R54, R55 (log entry 17): each accepted word has one meaning, and no bit of it is dropped. -/
def Obligations.EncodeOfDecode : Prop := ∀ (w : Word32) (i : Instr), decodeWord w = .ok i → encode i = w

/-- R54 (log entry 17): a decoded word carries its row's pattern. -/
def Obligations.DecodedWordHasRowPattern : Prop :=
  ∀ (w : Word32) (i : Instr), decodeWord w = .ok i → w &&& rowMask i = rowMatch i

/-- R55 (D16, D17; log entry 18): a word of no row is refused by name, and so is a word of one of the five plain format 3 rows
with `i = 0` and a nonzero bit among 12:5. -/
def Obligations.DecodeRejectsByName : Prop :=
  ∀ w : Word32,
    ((w &&& maskFormat1 ≠ matchCall ∧
        ∀ m ∈ [matchJmpl, matchSave, matchRestore, matchLdtw, matchLdtwa, matchSttw, matchSttwa], w &&& maskFormat3 ≠ m) →
      decodeWord w = .error .notInScope) ∧
    (∀ m ∈ [matchJmpl, matchSave, matchRestore, matchLdtw, matchSttw], w &&& maskFormat3 = m →
      w.getLsbD 13 = false → w.extractLsb' 5 8 ≠ 0 → decodeWord w = .error .reservedBits)

/-- Words of 95_test_vectors.md V60 to V65 and of its programs, each with the instruction it stands for. -/
def Obligations.KnownWordsDecode : Prop :=
  decodeWord 0x9DE3BFA0 = .ok (.save 14 14 (.imm (-96))) ∧
  decodeWord 0x81E80000 = .ok (.restore 0 0 (.reg 0)) ∧
  decodeWord 0x81E80020 = .error .reservedBits ∧
  decodeWord 0xD49A1000 = .ok (.ldtwa 10 8 (.reg 0x80 0)) ∧
  decodeWord 0x01000000 = .error .notInScope ∧
  decodeWord 0x40000040 = .ok (.call 0x40) ∧
  decodeWord 0x81C7E008 = .ok (.jmpl 0 31 (.imm 8)) ∧
  decodeWord 0xC4182100 = .ok (.ldtw 2 0 (.imm 0x100)) ∧
  decodeWord 0xFC3BA000 = .ok (.sttw 30 14 (.imm 0)) ∧
  decodeWord 0xC0B82000 = .ok (.sttwa 0 0 (.imm 0))

/-! ## SAVE and RESTORE (40_window_management.md) -/

/-- R60, R62 (log entries 6, 7): SAVE completes when CANSAVE is not 0 and CLEANWIN exceeds CANRESTORE; its result and its
frame. Sources are read in the old window, `rd` is written in the new one. -/
def Obligations.SaveCompletes : Prop :=
  ∀ (rw : Nat) (s : Processor rw) (rd rs1 : RegNum) (op2 : Operand2), s.wf → s.canSave ≠ 0 → s.canRestore < s.cleanWin →
    ∃ t : Processor rw, exec (.save rd rs1 op2) ⟨rw, s⟩ = .next ⟨rw, t⟩ ∧
      t.cwp = (s.cwp + 1) % s.cfg.nWindows ∧ t.canSave + 1 = s.canSave ∧ t.canRestore = s.canRestore + 1 ∧
      (rd ≠ 0 → readReg t rd = readReg s rs1 + operand2Value s op2) ∧
      RegsSameBut s t [regSlot t rd] ∧ BytesSameBut s t [] ∧ PcAdvanced s t ∧ FixedStateSame s t ∧ t.draws = s.draws

/-- R61, R62, R91, R93, R95 (log entries 6, 7, 8): where SAVE does not complete, and in which order it is tested. -/
def Obligations.SaveStops : Prop :=
  ∀ (rw : Nat) (s : Processor rw) (rd rs1 : RegNum) (op2 : Operand2),
    (s.canSave = 0 → exec (.save rd rs1 op2) ⟨rw, s⟩ = .fault (.trap .windowSpill)) ∧
    (s.canSave ≠ 0 → s.cleanWin = s.canRestore → exec (.save rd rs1 op2) ⟨rw, s⟩ = .fault (.trap .cleanWindow)) ∧
    (s.canSave ≠ 0 → s.cleanWin < s.canRestore → exec (.save rd rs1 op2) ⟨rw, s⟩ = .refused .inconsistentWindowState)

/-- R63, R65, R25 (log entries 6, 7, 9): RESTORE completes when CANRESTORE is not 0; its result and its frame. The 16 registers
of the window left are free values, and `rd` names none of them. -/
def Obligations.RestoreCompletes : Prop :=
  ∀ (rw : Nat) (s : Processor rw) (rd rs1 : RegNum) (op2 : Operand2), s.wf → s.canRestore ≠ 0 →
    ∃ t : Processor rw, exec (.restore rd rs1 op2) ⟨rw, s⟩ = .next ⟨rw, t⟩ ∧
      (t.cwp + 1) % s.cfg.nWindows = s.cwp ∧ t.cwp < s.cfg.nWindows ∧
      t.canSave = s.canSave + 1 ∧ t.canRestore + 1 = s.canRestore ∧
      (rd ≠ 0 → readReg t rd = readReg s rs1 + operand2Value s op2) ∧
      (∀ k : Fin 8, readSlot t (.loc s.cwp k) = Config.freeWord rw (s.draws + k.val) ∧
        readSlot t (.out s.cwp k) = Config.freeWord rw (s.draws + 8 + k.val)) ∧
      regSlot t rd ∉ windowSlots s.cwp ∧ t.draws = s.draws + 16 ∧
      RegsSameBut s t (regSlot t rd :: windowSlots s.cwp) ∧ BytesSameBut s t [] ∧ PcAdvanced s t ∧ FixedStateSame s t

/-- R64, R92 (log entry 6): RESTORE on a window underflow. -/
def Obligations.RestoreUnderflowTraps : Prop :=
  ∀ (rw : Nat) (s : Processor rw) (rd rs1 : RegNum) (op2 : Operand2), s.canRestore = 0 →
    exec (.restore rd rs1 op2) ⟨rw, s⟩ = .fault (.trap .windowFill)

/-- R66 (derived by the spec): a SAVE and then a RESTORE give back the window state and every physical register but the two
`rd` and the 16 of the window between; every register of the caller's view keeps its value but the two `rd`. -/
def Obligations.SaveRestoreRoundTrip : Prop :=
  ∀ (rw : Nat) (s t u : Processor rw) (rd rs1 rd' rs1' : RegNum) (op2 op2' : Operand2), s.wf →
    exec (.save rd rs1 op2) ⟨rw, s⟩ = .next ⟨rw, t⟩ → exec (.restore rd' rs1' op2') ⟨rw, t⟩ = .next ⟨rw, u⟩ →
    u.cwp = s.cwp ∧ u.canSave = s.canSave ∧ u.canRestore = s.canRestore ∧
    RegsSameBut s u (regSlot t rd :: regSlot u rd' :: windowSlots (nextWindow s.cfg.nWindows s.cwp)) ∧
    (∀ i : RegNum, regSlot s i ≠ regSlot t rd → regSlot s i ≠ regSlot u rd' → readReg u i = readReg s i)

/-- R17: which instruction moves CWP, and how; CALL and JMPL do not. CWP stays in `0..N-1`. -/
def Obligations.OnlySaveAndRestoreMoveTheWindow : Prop :=
  ∀ (i : Instr) (rw : Nat) (s t : Processor rw), s.wf → exec i ⟨rw, s⟩ = .next ⟨rw, t⟩ →
    t.cwp < t.cfg.nWindows ∧
    (match i with
      | .save _ _ _ => t.cwp = (s.cwp + 1) % s.cfg.nWindows
      | .restore _ _ _ => t.cwp = (s.cwp + s.cfg.nWindows - 1) % s.cfg.nWindows
      | .call _ => t.cwp = s.cwp
      | .jmpl _ _ _ => t.cwp = s.cwp
      | .ldtw _ _ _ => t.cwp = s.cwp
      | .ldtwa _ _ _ => t.cwp = s.cwp
      | .sttw _ _ _ => t.cwp = s.cwp
      | .sttwa _ _ _ => t.cwp = s.cwp)

/-- R19, R105 (derived by the spec): with the counters consistent no SAVE enters the overlap window; one whose next window is
the overlap window traps. -/
def Obligations.SaveNeverEntersOverlapWindow : Prop :=
  ∀ (rw : Nat) (s : Processor rw) (rd rs1 : RegNum) (op2 : Operand2), s.wf → WindowStateConsistent s →
    (∀ t, exec (.save rd rs1 op2) ⟨rw, s⟩ = .next ⟨rw, t⟩ → t.cwp ≠ overlapWindow s) ∧
    (nextWindow s.cfg.nWindows s.cwp = overlapWindow s → exec (.save rd rs1 op2) ⟨rw, s⟩ = .fault (.trap .windowSpill))

/-! ## CALL and JMPL (41_control_transfer.md) -/

/-- R70, R71 (log entries 11, 27): CALL completes when it is not a delay instruction; its result and its frame. -/
def Obligations.CallCompletes : Prop :=
  ∀ (rw : Nat) (s : Processor rw) (disp30 : BitVec 30), s.wf → s.npc = s.pc + 4 →
    ∃ t : Processor rw, exec (.call disp30) ⟨rw, s⟩ = .next ⟨rw, t⟩ ∧ readReg t 15 = s.pc ∧ t.pc = s.npc ∧
      t.npc = s.pc + callDisplacement rw disp30 ∧
      RegsSameBut s t [.out s.cwp 7] ∧ BytesSameBut s t [] ∧ WindowUnmoved s t ∧ FixedStateSame s t ∧ t.draws = s.draws

/-- R72, R71 (log entries 11, 14, 26): JMPL completes when it is not a delay instruction and its target is a multiple of 4; its
result and its frame. -/
def Obligations.JmplCompletes : Prop :=
  ∀ (rw : Nat) (s : Processor rw) (rd rs1 : RegNum) (op2 : Operand2), s.wf → s.npc = s.pc + 4 →
    (readReg s rs1 + operand2Value s op2).toNat % 4 = 0 →
    ∃ t : Processor rw, exec (.jmpl rd rs1 op2) ⟨rw, s⟩ = .next ⟨rw, t⟩ ∧ (rd ≠ 0 → readReg t rd = s.pc) ∧ t.pc = s.npc ∧
      t.npc = readReg s rs1 + operand2Value s op2 ∧
      RegsSameBut s t [regSlot s rd] ∧ BytesSameBut s t [] ∧ WindowUnmoved s t ∧ FixedStateSame s t ∧ t.draws = s.draws

/-- R72, R96 (log entry 14): a JMPL target that is not a multiple of 4 traps. -/
def Obligations.JmplMisalignedTargetTraps : Prop :=
  ∀ (rw : Nat) (s : Processor rw) (rd rs1 : RegNum) (op2 : Operand2), s.npc = s.pc + 4 →
    (readReg s rs1 + operand2Value s op2).toNat % 4 ≠ 0 →
    exec (.jmpl rd rs1 op2) ⟨rw, s⟩ = .fault (.trap .memAddressNotAligned)

/-- R71, R95 (log entry 12): a CALL or JMPL executed as a delay instruction is refused, whatever its target. -/
def Obligations.TransferInDelaySlotRefused : Prop :=
  ∀ (rw : Nat) (s : Processor rw) (disp30 : BitVec 30) (rd rs1 : RegNum) (op2 : Operand2), s.npc ≠ s.pc + 4 →
    exec (.call disp30) ⟨rw, s⟩ = .refused .transferInDelaySlot ∧
      exec (.jmpl rd rs1 op2) ⟨rw, s⟩ = .refused .transferInDelaySlot

/-! ## Twin words (42_twin_word.md) -/

/-- R90: an odd register number traps in all four, in every state, before anything else is looked at. -/
def Obligations.OddPairTraps : Prop :=
  ∀ (rw : Nat) (s : Processor rw) (rd rs1 : RegNum) (op2 : Operand2) (alt : AltOperand), rd.toNat % 2 = 1 →
    exec (.ldtw rd rs1 op2) ⟨rw, s⟩ = .fault (.trap .illegalInstruction) ∧
    exec (.ldtwa rd rs1 alt) ⟨rw, s⟩ = .fault (.trap .illegalInstruction) ∧
    exec (.sttw rd rs1 op2) ⟨rw, s⟩ = .fault (.trap .illegalInstruction) ∧
    exec (.sttwa rd rs1 alt) ⟨rw, s⟩ = .fault (.trap .illegalInstruction)

/-- R90, R104: the trap is raised by exactly the instructions whose pair number is odd. -/
def Obligations.IllegalInstructionOnlyForOddPairs : Prop :=
  ∀ (i : Instr) (rw : Nat) (s : Processor rw), exec i ⟨rw, s⟩ = .fault (.trap .illegalInstruction) ↔ i.wf = false

/-- R81, R82, R88, R89 (log entries 14, 20, 26): LDTW completes on an even pair and a mapped address that is a multiple of 8;
its result and its frame. -/
def Obligations.LdtwCompletes : Prop :=
  ∀ (rw : Nat) (s : Processor rw) (rd rs1 : RegNum) (op2 : Operand2), s.wf → rd.toNat % 2 = 0 →
    (readReg s rs1 + operand2Value s op2).toNat % 8 = 0 →
    isMapped s (twinKeys 0 (readReg s rs1 + operand2Value s op2)) = true →
    ∃ t : Processor rw, exec (.ldtw rd rs1 op2) ⟨rw, s⟩ = .next ⟨rw, t⟩ ∧
      LoadsTwin s t 0 rd (readReg s rs1 + operand2Value s op2)

/-- R84 (log entries 14, 19, 20, 26): LDTWA completes where LDTW would in the space the supplied altSpace selects. -/
def Obligations.LdtwaCompletes : Prop :=
  ∀ (rw : Nat) (s : Processor rw) (rd rs1 : RegNum) (op2 : AltOperand) (space : Nat), s.wf → rd.toNat % 2 = 0 →
    AltSpaceIs s op2 space →
    (readReg s rs1 + altOperandValue s op2).toNat % 8 = 0 →
    isMapped s (twinKeys space (readReg s rs1 + altOperandValue s op2)) = true →
    ∃ t : Processor rw, exec (.ldtwa rd rs1 op2) ⟨rw, s⟩ = .next ⟨rw, t⟩ ∧
      LoadsTwin s t space rd (readReg s rs1 + altOperandValue s op2)

/-- R85, R82, R88 (log entries 14, 20, 26, 28): STTW completes on an even pair and a mapped address that is a multiple of 8
outside the program text; its result and its frame. -/
def Obligations.SttwCompletes : Prop :=
  ∀ (rw : Nat) (s : Processor rw) (rd rs1 : RegNum) (op2 : Operand2), s.wf → rd.toNat % 2 = 0 →
    (readReg s rs1 + operand2Value s op2).toNat % 8 = 0 →
    isMapped s (twinKeys 0 (readReg s rs1 + operand2Value s op2)) = true →
    hitsText s (twinKeys 0 (readReg s rs1 + operand2Value s op2)) = false →
    ∃ t : Processor rw, exec (.sttw rd rs1 op2) ⟨rw, s⟩ = .next ⟨rw, t⟩ ∧
      StoresTwin s t 0 rd (readReg s rs1 + operand2Value s op2)

/-- R87 (log entries 14, 19, 20, 26, 28): STTWA completes where STTW would in the space the supplied altSpace selects. -/
def Obligations.SttwaCompletes : Prop :=
  ∀ (rw : Nat) (s : Processor rw) (rd rs1 : RegNum) (op2 : AltOperand) (space : Nat), s.wf → rd.toNat % 2 = 0 →
    AltSpaceIs s op2 space →
    (readReg s rs1 + altOperandValue s op2).toNat % 8 = 0 →
    isMapped s (twinKeys space (readReg s rs1 + altOperandValue s op2)) = true →
    hitsText s (twinKeys space (readReg s rs1 + altOperandValue s op2)) = false →
    ∃ t : Processor rw, exec (.sttwa rd rs1 op2) ⟨rw, s⟩ = .next ⟨rw, t⟩ ∧
      StoresTwin s t space rd (readReg s rs1 + altOperandValue s op2)

/-- R83: with the pair R[0]-R[1] as the destination of LDTW or LDTWA only R[1] is modified, and it receives the word at the
highest address. -/
def Obligations.LoadOfPairZeroModifiesR1Only : Prop :=
  ∀ (rw : Nat) (s t : Processor rw) (rs1 : RegNum), s.wf →
    (∀ op2 : Operand2, exec (.ldtw 0 rs1 op2) ⟨rw, s⟩ = .next ⟨rw, t⟩ →
      RegsSameBut s t [.global s.gl 0] ∧
        readReg t 1 = (wordAt s 0 (readReg s rs1 + operand2Value s op2 + 4)).zeroExtend rw) ∧
    (∀ (op2 : AltOperand) (space : Nat), AltSpaceIs s op2 space → exec (.ldtwa 0 rs1 op2) ⟨rw, s⟩ = .next ⟨rw, t⟩ →
      RegsSameBut s t [.global s.gl 0] ∧
        readReg t 1 = (wordAt s space (readReg s rs1 + altOperandValue s op2 + 4)).zeroExtend rw)

/-- R86: with the pair R[0]-R[1] as the source of STTW or STTWA, 0 goes to the word at the lowest address and the least
significant 32 bits of R[1] to the word at the highest address. -/
def Obligations.StoreOfPairZeroWritesZeroAndR1 : Prop :=
  ∀ (rw : Nat) (s t : Processor rw) (rs1 : RegNum), s.wf →
    (∀ op2 : Operand2, exec (.sttw 0 rs1 op2) ⟨rw, s⟩ = .next ⟨rw, t⟩ →
      wordAt t 0 (readReg s rs1 + operand2Value s op2) = 0 ∧
        wordAt t 0 (readReg s rs1 + operand2Value s op2 + 4) = (readReg s 1).extractLsb' 0 32) ∧
    (∀ (op2 : AltOperand) (space : Nat), AltSpaceIs s op2 space → exec (.sttwa 0 rs1 op2) ⟨rw, s⟩ = .next ⟨rw, t⟩ →
      wordAt t space (readReg s rs1 + altOperandValue s op2) = 0 ∧
        wordAt t space (readReg s rs1 + altOperandValue s op2 + 4) = (readReg s 1).extractLsb' 0 32)

/-- R88, R96, R95 (log entries 14, 19, 25): an even pair and an address that is not a multiple of 8. -/
def Obligations.MisalignedTwinWordTraps : Prop :=
  ∀ (rw : Nat) (s : Processor rw) (rd rs1 : RegNum), rd.toNat % 2 = 0 →
    (∀ op2 : Operand2, (readReg s rs1 + operand2Value s op2).toNat % 8 ≠ 0 →
      exec (.ldtw rd rs1 op2) ⟨rw, s⟩ = .fault (.trap .memAddressNotAligned) ∧
        exec (.sttw rd rs1 op2) ⟨rw, s⟩ = .fault (.trap .memAddressNotAligned)) ∧
    (∀ (op2 : AltOperand) (space : Nat), AltSpaceIs s op2 space →
      (readReg s rs1 + altOperandValue s op2).toNat % 8 ≠ 0 →
      exec (.ldtwa rd rs1 op2) ⟨rw, s⟩ = .fault (.trap .memAddressNotAligned) ∧
        exec (.sttwa rd rs1 op2) ⟨rw, s⟩ = .fault (.trap .memAddressNotAligned))

/-- R44, R95 (log entry 16): an even pair and an aligned address with a byte outside `mapped` has no step. -/
def Obligations.UnmappedTwinWordIsStuck : Prop :=
  ∀ (rw : Nat) (s : Processor rw) (rd rs1 : RegNum), rd.toNat % 2 = 0 →
    (∀ op2 : Operand2, (readReg s rs1 + operand2Value s op2).toNat % 8 = 0 →
      isMapped s (twinKeys 0 (readReg s rs1 + operand2Value s op2)) = false →
      exec (.ldtw rd rs1 op2) ⟨rw, s⟩ = .fault (.stuck .dataUnmapped) ∧
        exec (.sttw rd rs1 op2) ⟨rw, s⟩ = .fault (.stuck .dataUnmapped)) ∧
    (∀ (op2 : AltOperand) (space : Nat), AltSpaceIs s op2 space →
      (readReg s rs1 + altOperandValue s op2).toNat % 8 = 0 →
      isMapped s (twinKeys space (readReg s rs1 + altOperandValue s op2)) = false →
      exec (.ldtwa rd rs1 op2) ⟨rw, s⟩ = .fault (.stuck .dataUnmapped) ∧
        exec (.sttwa rd rs1 op2) ⟨rw, s⟩ = .fault (.stuck .dataUnmapped))

/-- R47 (D26; log entries 25, 28): a store that would otherwise complete and overlaps the program text is refused. -/
def Obligations.StoreIntoProgramTextRefused : Prop :=
  ∀ (rw : Nat) (s : Processor rw) (rd rs1 : RegNum), rd.toNat % 2 = 0 →
    (∀ op2 : Operand2, (readReg s rs1 + operand2Value s op2).toNat % 8 = 0 →
      isMapped s (twinKeys 0 (readReg s rs1 + operand2Value s op2)) = true →
      hitsText s (twinKeys 0 (readReg s rs1 + operand2Value s op2)) = true →
      exec (.sttw rd rs1 op2) ⟨rw, s⟩ = .refused .storeToProgramText) ∧
    (∀ (op2 : AltOperand) (space : Nat), AltSpaceIs s op2 space →
      (readReg s rs1 + altOperandValue s op2).toNat % 8 = 0 →
      isMapped s (twinKeys space (readReg s rs1 + altOperandValue s op2)) = true →
      hitsText s (twinKeys space (readReg s rs1 + altOperandValue s op2)) = true →
      exec (.sttwa rd rs1 op2) ⟨rw, s⟩ = .refused .storeToProgramText)

/-- R84, R87, R95 (D18; log entries 19, 25): an even pair with altSpace not supplied is refused whatever the address; so is
one whose identifier the supplied altSpace does not list (the model's choice; log entry 19); a trap altSpace defines for the
identifier is that trap. -/
def Obligations.AlternateSpaceStops : Prop :=
  ∀ (rw : Nat) (s : Processor rw) (rd rs1 : RegNum) (op2 : AltOperand), rd.toNat % 2 = 0 →
    (s.cfg.altSpace = none →
      exec (.ldtwa rd rs1 op2) ⟨rw, s⟩ = .refused .alternateSpace ∧
        exec (.sttwa rd rs1 op2) ⟨rw, s⟩ = .refused .alternateSpace) ∧
    (∀ table, s.cfg.altSpace = some table → (∀ e ∈ table, e.1 ≠ asiOf s op2) →
      exec (.ldtwa rd rs1 op2) ⟨rw, s⟩ = .refused .alternateSpace ∧
        exec (.sttwa rd rs1 op2) ⟨rw, s⟩ = .refused .alternateSpace) ∧
    (∀ id, altTargetOf s (asiOf s op2) = some (.trap id) →
      exec (.ldtwa rd rs1 op2) ⟨rw, s⟩ = .fault (.trap (.altSpaceDefined id)) ∧
        exec (.sttwa rd rs1 op2) ⟨rw, s⟩ = .fault (.trap (.altSpaceDefined id)))

/-! ## Memory (20_memory.md) -/

/-- R42 (D13; log entry 13): the byte order of a word, both ways, and that a word comes back from its bytes. -/
def Obligations.ByteOrderOfAWord : Prop :=
  ∀ (b0 b1 b2 b3 : Byte) (w : Word32) (be : Bool),
    word32 true [b0, b1, b2, b3] = b0 ++ b1 ++ b2 ++ b3 ∧ word32 false [b0, b1, b2, b3] = b3 ++ b2 ++ b1 ++ b0 ∧
    bytes32 true w = [w.extractLsb' 24 8, w.extractLsb' 16 8, w.extractLsb' 8 8, w.extractLsb' 0 8] ∧
    bytes32 false w = [w.extractLsb' 0 8, w.extractLsb' 8 8, w.extractLsb' 16 8, w.extractLsb' 24 8] ∧
    word32 be (bytes32 be w) = w ∧ bytes32 be (word32 be [b0, b1, b2, b3]) = [b0, b1, b2, b3]

/-- R44, R46 (log entry 15): a read of `n` bytes sees the last write to each of them, and accesses to disjoint bytes do not
affect each other. -/
def Obligations.MemoryReadSeesLastWrite : Prop :=
  ∀ (rw : Nat) (m : Memory) (space n space' n' : Nat) (a a' : Word rw) (bs : List Byte), Memory.wf m = true → n ≤ 2 ^ rw →
    bs.length = n →
    memRead (memWrite m (accessKeys space a n) bs) (accessKeys space a n) = bs ∧
    ((∀ k ∈ accessKeys space' a' n', k ∉ accessKeys space a n) →
      memRead (memWrite m (accessKeys space a n) bs) (accessKeys space' a' n') = memRead m (accessKeys space' a' n')) ∧
    Memory.wf (memWrite m (accessKeys space a n) bs) = true

/-- R46 (a), with R82 and R89 (log entries 19, 20): a twin-word load after a twin-word store to the same address gives the low
32 bits of what was stored: LDTW or LDTWA after STTW or STTWA, in the one space both address, in either byte order, through
any registers. -/
def Obligations.TwinLoadReturnsTwinStore : Prop :=
  ∀ (rw : Nat) (s t u : Processor rw) (i j : Instr) (space : Nat) (rd rd' : RegNum) (a : Word rw), s.wf →
    StoresAt i s space rd a → exec i ⟨rw, s⟩ = .next ⟨rw, t⟩ → LoadsAt j t space rd' a → exec j ⟨rw, t⟩ = .next ⟨rw, u⟩ →
    (rd' ≠ 0 → readReg u rd' = ((readReg s rd).extractLsb' 0 32).zeroExtend rw) ∧
    readReg u (rd' + 1) = ((readReg s (rd + 1)).extractLsb' 0 32).zeroExtend rw

/-! ## The whole machine -/

/-- R6, R34, R42, R107: when the four bytes at an aligned `pc` in the mapped program text decode to an instruction, the step
is that instruction's outcome and nothing is added around it. -/
def Obligations.StepRunsDecodedInstruction : Prop :=
  ∀ (rw : Nat) (s : Processor rw) (i : Instr), s.pc.toNat % 4 = 0 → (fetchKeys s).all (inRegions s.cfg.text) = true →
    isMapped s (fetchKeys s) = true → decodeBytes (memRead s.mem (fetchKeys s)) = .ok (i, []) → step ⟨rw, s⟩ = exec i ⟨rw, s⟩

/-- R55, R107, R44 (log entries 18, 28, 34): the outcomes of a step that runs no instruction. -/
def Obligations.StepWithoutInstructionStops : Prop :=
  ∀ (rw : Nat) (s : Processor rw),
    (s.pc.toNat % 4 ≠ 0 → step ⟨rw, s⟩ = .fault (.stuck .fetchMisaligned)) ∧
    (s.pc.toNat % 4 = 0 → (fetchKeys s).all (inRegions s.cfg.text) = false →
      step ⟨rw, s⟩ = .fault (.stuck .fetchOutsideText)) ∧
    (s.pc.toNat % 4 = 0 → (fetchKeys s).all (inRegions s.cfg.text) = true → isMapped s (fetchKeys s) = false →
      step ⟨rw, s⟩ = .fault (.stuck .fetchUnmapped)) ∧
    (∀ w, fetchWord s = .ok w → decodeWord w = .error .notInScope → step ⟨rw, s⟩ = .refused .notInScope) ∧
    (∀ w, fetchWord s = .ok w → decodeWord w = .error .reservedBits → step ⟨rw, s⟩ = .refused .reservedBits)

/-- Log entry 22: an instruction placed by `withFetchWord` at an aligned `pc` is the one the next step runs. -/
def Obligations.PlacedInstructionRuns : Prop :=
  ∀ (rw : Nat) (s : Processor rw) (i : Instr), 32 ≤ rw → Memory.wf s.mem = true → s.pc.toNat % 4 = 0 →
    step (State.withFetchWord ⟨rw, s⟩ 32 (encode i).toNat) = exec i (State.withFetchWord ⟨rw, s⟩ 32 (encode i).toNat)

/-- R6, R95: the stops each instruction has, all of them; CALL never faults. -/
def Obligations.StopsOfEachInstruction : Prop :=
  ∀ (rw : Nat) (s : Processor rw),
    (∀ i f, exec i ⟨rw, s⟩ = .fault f →
      (match i with
        | .call _ => False
        | .jmpl _ _ _ => f = .trap .memAddressNotAligned
        | .save _ _ _ => f = .trap .windowSpill ∨ f = .trap .cleanWindow
        | .restore _ _ _ => f = .trap .windowFill
        | .ldtw _ _ _ => f = .trap .illegalInstruction ∨ f = .trap .memAddressNotAligned ∨ f = .stuck .dataUnmapped
        | .sttw _ _ _ => f = .trap .illegalInstruction ∨ f = .trap .memAddressNotAligned ∨ f = .stuck .dataUnmapped
        | .ldtwa _ _ _ => f = .trap .illegalInstruction ∨ f = .trap .memAddressNotAligned ∨ f = .stuck .dataUnmapped ∨
            ∃ id, f = .trap (.altSpaceDefined id)
        | .sttwa _ _ _ => f = .trap .illegalInstruction ∨ f = .trap .memAddressNotAligned ∨ f = .stuck .dataUnmapped ∨
            ∃ id, f = .trap (.altSpaceDefined id))) ∧
    (∀ i r, exec i ⟨rw, s⟩ = .refused r →
      (match i with
        | .call _ => r = .transferInDelaySlot
        | .jmpl _ _ _ => r = .transferInDelaySlot
        | .save _ _ _ => r = .inconsistentWindowState
        | .restore _ _ _ => False
        | .ldtw _ _ _ => False
        | .ldtwa _ _ _ => r = .alternateSpace
        | .sttw _ _ _ => r = .storeToProgramText
        | .sttwa _ _ _ => r = .alternateSpace ∨ r = .storeToProgramText))

/-- R1, R2, R11, R14, R17, R24, R44 (log entry 33): every step keeps a well-formed state well-formed: the registers the
configuration has, CWP and GL in range, memory in its canonical form. -/
def Obligations.StepKeepsWellFormed : Prop :=
  ∀ (rw : Nat) (s t : Processor rw), s.wf → step ⟨rw, s⟩ = .next ⟨rw, t⟩ → t.wf

/-- R21, R62, R67 (derived by the spec; log entry 7): every step keeps the equation of the window counters and the bounds of
CLEANWIN. -/
def Obligations.StepKeepsWindowsReady : Prop :=
  ∀ (rw : Nat) (s t : Processor rw), WindowsReady s → step ⟨rw, s⟩ = .next ⟨rw, t⟩ → WindowsReady t

/-- R34 (log entries 11, 14): every step keeps `pc` and `npc` multiples of 4. -/
def Obligations.StepKeepsPcAligned : Prop :=
  ∀ (rw : Nat) (s t : Processor rw), 32 ≤ rw → PcAligned s → step ⟨rw, s⟩ = .next ⟨rw, t⟩ → PcAligned t

/-- R47 (D26; log entry 28): no step changes a byte of the named program text, nor which bytes are named. -/
def Obligations.StepKeepsProgramText : Prop :=
  ∀ (rw : Nat) (s t : Processor rw), step ⟨rw, s⟩ = .next ⟨rw, t⟩ →
    t.cfg.text = s.cfg.text ∧ ∀ k, inRegions s.cfg.text k = true → Memory.byteAt t.mem k = Memory.byteAt s.mem k

/-- R4, R24, R33, R62, R65, R97 (log entries 2, 24, 36): no step changes the register width, the configuration, GL, OTHERWIN,
CLEANWIN, the floating-point file or the address space identifier register. -/
def Obligations.StepKeepsFixedState : Prop :=
  ∀ (rw : Nat) (s : Processor rw) (next : State), step ⟨rw, s⟩ = .next next →
    ∃ t : Processor rw, next = ⟨rw, t⟩ ∧ FixedStateSame s t

/-- R100, R4, R21, R34, R62 (log entries 7, 11, 14, 33, 38): every step from a state that meets the launch premises of R100
leads to one that meets them: they are a property of every state of a run, inside a delay instruction too. -/
def Obligations.StepKeepsLaunch : Prop :=
  ∀ (rw : Nat) (s : Processor rw) (next : State), Launch s → step ⟨rw, s⟩ = .next next →
    ∃ t : Processor rw, next = ⟨rw, t⟩ ∧ Launch t

/-- R100: the launch state the model calls reset satisfies every launch premise, and is not inside a delay instruction (the
values are the model's choice; log entry 21). -/
def Obligations.ResetIsALaunchState : Prop := Launch State.reset.proc ∧ ProgramLaunch State.reset.proc

/-- Log entries 1, 9, 13, 15, 16, 21, 22, 37 (the model's choice: the spec states no reset value, R36): what reset leaves,
field by field. -/
def Obligations.ResetValues : Prop :=
  State.reset.rw = 64 ∧ State.reset.proc.pc = 0x1000 ∧ State.reset.proc.npc = 0x1004 ∧ State.reset.proc.cwp = 0 ∧
  State.reset.proc.gl = 0 ∧ State.reset.proc.canSave = 4 ∧ State.reset.proc.canRestore = 1 ∧
  State.reset.proc.otherWin = 1 ∧ State.reset.proc.cleanWin = 7 ∧ State.reset.proc.asi = 0 ∧ State.reset.proc.draws = 0 ∧
  State.reset.proc.cfg.nWindows = 8 ∧ State.reset.proc.cfg.maxGl = 2 ∧ State.reset.proc.cfg.dataBigEndian = true ∧
  State.reset.proc.cfg.mapped = [⟨0, 2 ^ 64⟩] ∧ State.reset.proc.cfg.text = [] ∧ State.reset.proc.cfg.altSpace = none ∧
  State.reset.proc.mem = [] ∧ State.reset.proc.globals.length = 3 ∧ State.reset.proc.windows.length = 8 ∧
  (∀ sl, readSlot State.reset.proc sl = 0) ∧ (∀ j : Fin 64, State.reset.proc.fw[j] = 0)

/-- R107 (D29; log entry 30): a run that completes does so at `endPc` with `npc = endPc + 4`, the instruction there is not
executed, and a stop on the way is not completion. -/
def Obligations.RunCompletesOnlyAtEndPc : Prop :=
  ∀ (endPc n : Nat) (s : State),
    (∀ t, runTo endPc n s = .completed t → t.proc.pc.toNat = endPc ∧ t.proc.npc = t.proc.pc + 4) ∧
    (s.proc.pc.toNat = endPc → s.proc.npc = s.proc.pc + 4 → runTo endPc n s = .completed s) ∧
    (∀ f, ¬ (s.proc.pc.toNat = endPc ∧ s.proc.npc = s.proc.pc + 4) → step s = .fault f →
      runTo endPc (n + 1) s = .faulted f) ∧
    (∀ r, ¬ (s.proc.pc.toNat = endPc ∧ s.proc.npc = s.proc.pc + 4) → step s = .refused r →
      runTo endPc (n + 1) s = .refused r)

/-! ## The application's view: a stack of frames (10_state.md R26; D6, log entry 3) -/

/-- R26: every R address reads and writes the same value in the stack view as in the finite machine. -/
def Obligations.StackViewReadsAndWrites : Prop :=
  ∀ (rw : Nat) (s : Processor rw) (i : RegNum) (v : Word rw), s.wf → s.canRestore + 2 ≤ s.cfg.nWindows →
    stackRead (stackView s) i = readReg s i ∧ stackView (writeReg s i v) = stackWrite (stackView s) i v

/-- R26 (log entries 3, 7): a SAVE that completes pushes one frame, whose 16 registers the stack view leaves open. -/
def Obligations.SavePushesAFrame : Prop :=
  ∀ (rw : Nat) (s t : Processor rw) (rd rs1 : RegNum) (op2 : Operand2), s.wf → WindowStateConsistent s →
    exec (.save rd rs1 op2) ⟨rw, s⟩ = .next ⟨rw, t⟩ →
    ∃ drawn, stackView t = stackSave (stackView s) rd (readReg s rs1 + operand2Value s op2) drawn

/-- R26 (log entries 3, 6, 7): a RESTORE that completes pops the current frame; one that underflows stands in the bottom
frame. -/
def Obligations.RestorePopsAFrame : Prop :=
  ∀ (rw : Nat) (s t : Processor rw) (rd rs1 : RegNum) (op2 : Operand2), s.wf → WindowStateConsistent s →
    (exec (.restore rd rs1 op2) ⟨rw, s⟩ = .next ⟨rw, t⟩ →
      stackRestore (stackView s) rd (readReg s rs1 + operand2Value s op2) = some (stackView t)) ∧
    (exec (.restore rd rs1 op2) ⟨rw, s⟩ = .fault (.trap .windowFill) →
      stackRestore (stackView s) rd (readReg s rs1 + operand2Value s op2) = none)
end

