-- ==== Sys2Proof/Laws/State.lean ====
section
/-! SUPPORT. One lemma per field per update of the processor, so that no proof unfolds a record update. -/

namespace Sys2Proof.Machine

variable {rw : Nat}

@[simp] theorem writeSlot_cfg (s : Processor rw) (sl : Slot) (v : Word rw) : (writeSlot s sl v).cfg = s.cfg := by
  cases sl <;> rfl
@[simp] theorem writeSlot_cwp (s : Processor rw) (sl : Slot) (v : Word rw) : (writeSlot s sl v).cwp = s.cwp := by
  cases sl <;> rfl
@[simp] theorem writeSlot_gl (s : Processor rw) (sl : Slot) (v : Word rw) : (writeSlot s sl v).gl = s.gl := by
  cases sl <;> rfl
@[simp] theorem writeSlot_canSave (s : Processor rw) (sl : Slot) (v : Word rw) :
    (writeSlot s sl v).canSave = s.canSave := by
  cases sl <;> rfl
@[simp] theorem writeSlot_canRestore (s : Processor rw) (sl : Slot) (v : Word rw) :
    (writeSlot s sl v).canRestore = s.canRestore := by
  cases sl <;> rfl
@[simp] theorem writeSlot_otherWin (s : Processor rw) (sl : Slot) (v : Word rw) :
    (writeSlot s sl v).otherWin = s.otherWin := by
  cases sl <;> rfl
@[simp] theorem writeSlot_cleanWin (s : Processor rw) (sl : Slot) (v : Word rw) :
    (writeSlot s sl v).cleanWin = s.cleanWin := by
  cases sl <;> rfl
@[simp] theorem writeSlot_fw (s : Processor rw) (sl : Slot) (v : Word rw) : (writeSlot s sl v).fw = s.fw := by
  cases sl <;> rfl
@[simp] theorem writeSlot_pc (s : Processor rw) (sl : Slot) (v : Word rw) : (writeSlot s sl v).pc = s.pc := by
  cases sl <;> rfl
@[simp] theorem writeSlot_npc (s : Processor rw) (sl : Slot) (v : Word rw) : (writeSlot s sl v).npc = s.npc := by
  cases sl <;> rfl
@[simp] theorem writeSlot_asi (s : Processor rw) (sl : Slot) (v : Word rw) : (writeSlot s sl v).asi = s.asi := by
  cases sl <;> rfl
@[simp] theorem writeSlot_mem (s : Processor rw) (sl : Slot) (v : Word rw) : (writeSlot s sl v).mem = s.mem := by
  cases sl <;> rfl
@[simp] theorem writeSlot_draws (s : Processor rw) (sl : Slot) (v : Word rw) : (writeSlot s sl v).draws = s.draws := by
  cases sl <;> rfl

@[simp] theorem writeReg_cfg (s : Processor rw) (i : RegNum) (v : Word rw) : (writeReg s i v).cfg = s.cfg :=
  writeSlot_cfg s _ v
@[simp] theorem writeReg_cwp (s : Processor rw) (i : RegNum) (v : Word rw) : (writeReg s i v).cwp = s.cwp :=
  writeSlot_cwp s _ v
@[simp] theorem writeReg_gl (s : Processor rw) (i : RegNum) (v : Word rw) : (writeReg s i v).gl = s.gl :=
  writeSlot_gl s _ v
@[simp] theorem writeReg_canSave (s : Processor rw) (i : RegNum) (v : Word rw) : (writeReg s i v).canSave = s.canSave :=
  writeSlot_canSave s _ v
@[simp] theorem writeReg_canRestore (s : Processor rw) (i : RegNum) (v : Word rw) :
    (writeReg s i v).canRestore = s.canRestore :=
  writeSlot_canRestore s _ v
@[simp] theorem writeReg_otherWin (s : Processor rw) (i : RegNum) (v : Word rw) : (writeReg s i v).otherWin = s.otherWin :=
  writeSlot_otherWin s _ v
@[simp] theorem writeReg_cleanWin (s : Processor rw) (i : RegNum) (v : Word rw) : (writeReg s i v).cleanWin = s.cleanWin :=
  writeSlot_cleanWin s _ v
@[simp] theorem writeReg_fw (s : Processor rw) (i : RegNum) (v : Word rw) : (writeReg s i v).fw = s.fw :=
  writeSlot_fw s _ v
@[simp] theorem writeReg_pc (s : Processor rw) (i : RegNum) (v : Word rw) : (writeReg s i v).pc = s.pc :=
  writeSlot_pc s _ v
@[simp] theorem writeReg_npc (s : Processor rw) (i : RegNum) (v : Word rw) : (writeReg s i v).npc = s.npc :=
  writeSlot_npc s _ v
@[simp] theorem writeReg_asi (s : Processor rw) (i : RegNum) (v : Word rw) : (writeReg s i v).asi = s.asi :=
  writeSlot_asi s _ v
@[simp] theorem writeReg_mem (s : Processor rw) (i : RegNum) (v : Word rw) : (writeReg s i v).mem = s.mem :=
  writeSlot_mem s _ v
@[simp] theorem writeReg_draws (s : Processor rw) (i : RegNum) (v : Word rw) : (writeReg s i v).draws = s.draws :=
  writeSlot_draws s _ v

@[simp] theorem advanceWindow_cfg (s : Processor rw) : (advanceWindow s).cfg = s.cfg := rfl
@[simp] theorem advanceWindow_globals (s : Processor rw) : (advanceWindow s).globals = s.globals := rfl
@[simp] theorem advanceWindow_windows (s : Processor rw) : (advanceWindow s).windows = s.windows := rfl
@[simp] theorem advanceWindow_cwp (s : Processor rw) : (advanceWindow s).cwp = nextWindow s.cfg.nWindows s.cwp := rfl
@[simp] theorem advanceWindow_gl (s : Processor rw) : (advanceWindow s).gl = s.gl := rfl
@[simp] theorem advanceWindow_canSave (s : Processor rw) : (advanceWindow s).canSave = s.canSave - 1 := rfl
@[simp] theorem advanceWindow_canRestore (s : Processor rw) : (advanceWindow s).canRestore = s.canRestore + 1 := rfl
@[simp] theorem advanceWindow_otherWin (s : Processor rw) : (advanceWindow s).otherWin = s.otherWin := rfl
@[simp] theorem advanceWindow_cleanWin (s : Processor rw) : (advanceWindow s).cleanWin = s.cleanWin := rfl
@[simp] theorem advanceWindow_fw (s : Processor rw) : (advanceWindow s).fw = s.fw := rfl
@[simp] theorem advanceWindow_pc (s : Processor rw) : (advanceWindow s).pc = s.pc := rfl
@[simp] theorem advanceWindow_npc (s : Processor rw) : (advanceWindow s).npc = s.npc := rfl
@[simp] theorem advanceWindow_asi (s : Processor rw) : (advanceWindow s).asi = s.asi := rfl
@[simp] theorem advanceWindow_mem (s : Processor rw) : (advanceWindow s).mem = s.mem := rfl
@[simp] theorem advanceWindow_draws (s : Processor rw) : (advanceWindow s).draws = s.draws := rfl

@[simp] theorem retreatWindow_cfg (s : Processor rw) : (retreatWindow s).cfg = s.cfg := rfl
@[simp] theorem retreatWindow_globals (s : Processor rw) : (retreatWindow s).globals = s.globals := rfl
@[simp] theorem retreatWindow_windows (s : Processor rw) : (retreatWindow s).windows = s.windows := rfl
@[simp] theorem retreatWindow_cwp (s : Processor rw) : (retreatWindow s).cwp = prevWindow s.cfg.nWindows s.cwp := rfl
@[simp] theorem retreatWindow_gl (s : Processor rw) : (retreatWindow s).gl = s.gl := rfl
@[simp] theorem retreatWindow_canSave (s : Processor rw) : (retreatWindow s).canSave = s.canSave + 1 := rfl
@[simp] theorem retreatWindow_canRestore (s : Processor rw) : (retreatWindow s).canRestore = s.canRestore - 1 := rfl
@[simp] theorem retreatWindow_otherWin (s : Processor rw) : (retreatWindow s).otherWin = s.otherWin := rfl
@[simp] theorem retreatWindow_cleanWin (s : Processor rw) : (retreatWindow s).cleanWin = s.cleanWin := rfl
@[simp] theorem retreatWindow_fw (s : Processor rw) : (retreatWindow s).fw = s.fw := rfl
@[simp] theorem retreatWindow_pc (s : Processor rw) : (retreatWindow s).pc = s.pc := rfl
@[simp] theorem retreatWindow_npc (s : Processor rw) : (retreatWindow s).npc = s.npc := rfl
@[simp] theorem retreatWindow_asi (s : Processor rw) : (retreatWindow s).asi = s.asi := rfl
@[simp] theorem retreatWindow_mem (s : Processor rw) : (retreatWindow s).mem = s.mem := rfl
@[simp] theorem retreatWindow_draws (s : Processor rw) : (retreatWindow s).draws = s.draws := rfl

@[simp] theorem havocWindow_cfg (s : Processor rw) (w : Nat) : (havocWindow s w).cfg = s.cfg := rfl
@[simp] theorem havocWindow_globals (s : Processor rw) (w : Nat) : (havocWindow s w).globals = s.globals := rfl
@[simp] theorem havocWindow_windows (s : Processor rw) (w : Nat) : (havocWindow s w).windows =
    s.windows.modify w (fun _ => ⟨drawEight rw s.draws, drawEight rw (s.draws + 8)⟩) := rfl
@[simp] theorem havocWindow_cwp (s : Processor rw) (w : Nat) : (havocWindow s w).cwp = s.cwp := rfl
@[simp] theorem havocWindow_gl (s : Processor rw) (w : Nat) : (havocWindow s w).gl = s.gl := rfl
@[simp] theorem havocWindow_canSave (s : Processor rw) (w : Nat) : (havocWindow s w).canSave = s.canSave := rfl
@[simp] theorem havocWindow_canRestore (s : Processor rw) (w : Nat) : (havocWindow s w).canRestore = s.canRestore := rfl
@[simp] theorem havocWindow_otherWin (s : Processor rw) (w : Nat) : (havocWindow s w).otherWin = s.otherWin := rfl
@[simp] theorem havocWindow_cleanWin (s : Processor rw) (w : Nat) : (havocWindow s w).cleanWin = s.cleanWin := rfl
@[simp] theorem havocWindow_fw (s : Processor rw) (w : Nat) : (havocWindow s w).fw = s.fw := rfl
@[simp] theorem havocWindow_pc (s : Processor rw) (w : Nat) : (havocWindow s w).pc = s.pc := rfl
@[simp] theorem havocWindow_npc (s : Processor rw) (w : Nat) : (havocWindow s w).npc = s.npc := rfl
@[simp] theorem havocWindow_asi (s : Processor rw) (w : Nat) : (havocWindow s w).asi = s.asi := rfl
@[simp] theorem havocWindow_mem (s : Processor rw) (w : Nat) : (havocWindow s w).mem = s.mem := rfl
@[simp] theorem havocWindow_draws (s : Processor rw) (w : Nat) : (havocWindow s w).draws = s.draws + 16 := rfl

@[simp] theorem advancePc_cfg (s : Processor rw) : (advancePc s).cfg = s.cfg := rfl
@[simp] theorem advancePc_globals (s : Processor rw) : (advancePc s).globals = s.globals := rfl
@[simp] theorem advancePc_windows (s : Processor rw) : (advancePc s).windows = s.windows := rfl
@[simp] theorem advancePc_cwp (s : Processor rw) : (advancePc s).cwp = s.cwp := rfl
@[simp] theorem advancePc_gl (s : Processor rw) : (advancePc s).gl = s.gl := rfl
@[simp] theorem advancePc_canSave (s : Processor rw) : (advancePc s).canSave = s.canSave := rfl
@[simp] theorem advancePc_canRestore (s : Processor rw) : (advancePc s).canRestore = s.canRestore := rfl
@[simp] theorem advancePc_otherWin (s : Processor rw) : (advancePc s).otherWin = s.otherWin := rfl
@[simp] theorem advancePc_cleanWin (s : Processor rw) : (advancePc s).cleanWin = s.cleanWin := rfl
@[simp] theorem advancePc_fw (s : Processor rw) : (advancePc s).fw = s.fw := rfl
@[simp] theorem advancePc_pc (s : Processor rw) : (advancePc s).pc = s.npc := rfl
@[simp] theorem advancePc_npc (s : Processor rw) : (advancePc s).npc = s.npc + 4 := rfl
@[simp] theorem advancePc_asi (s : Processor rw) : (advancePc s).asi = s.asi := rfl
@[simp] theorem advancePc_mem (s : Processor rw) : (advancePc s).mem = s.mem := rfl
@[simp] theorem advancePc_draws (s : Processor rw) : (advancePc s).draws = s.draws := rfl

@[simp] theorem delayedJump_cfg (s : Processor rw) (t : Word rw) : (delayedJump s t).cfg = s.cfg := rfl
@[simp] theorem delayedJump_globals (s : Processor rw) (t : Word rw) : (delayedJump s t).globals = s.globals := rfl
@[simp] theorem delayedJump_windows (s : Processor rw) (t : Word rw) : (delayedJump s t).windows = s.windows := rfl
@[simp] theorem delayedJump_cwp (s : Processor rw) (t : Word rw) : (delayedJump s t).cwp = s.cwp := rfl
@[simp] theorem delayedJump_gl (s : Processor rw) (t : Word rw) : (delayedJump s t).gl = s.gl := rfl
@[simp] theorem delayedJump_canSave (s : Processor rw) (t : Word rw) : (delayedJump s t).canSave = s.canSave := rfl
@[simp] theorem delayedJump_canRestore (s : Processor rw) (t : Word rw) : (delayedJump s t).canRestore = s.canRestore := rfl
@[simp] theorem delayedJump_otherWin (s : Processor rw) (t : Word rw) : (delayedJump s t).otherWin = s.otherWin := rfl
@[simp] theorem delayedJump_cleanWin (s : Processor rw) (t : Word rw) : (delayedJump s t).cleanWin = s.cleanWin := rfl
@[simp] theorem delayedJump_fw (s : Processor rw) (t : Word rw) : (delayedJump s t).fw = s.fw := rfl
@[simp] theorem delayedJump_pc (s : Processor rw) (t : Word rw) : (delayedJump s t).pc = s.npc := rfl
@[simp] theorem delayedJump_npc (s : Processor rw) (t : Word rw) : (delayedJump s t).npc = t := rfl
@[simp] theorem delayedJump_asi (s : Processor rw) (t : Word rw) : (delayedJump s t).asi = s.asi := rfl
@[simp] theorem delayedJump_mem (s : Processor rw) (t : Word rw) : (delayedJump s t).mem = s.mem := rfl
@[simp] theorem delayedJump_draws (s : Processor rw) (t : Word rw) : (delayedJump s t).draws = s.draws := rfl

@[simp] theorem writeFw_cfg (s : Processor rw) (j : Fin 64) (v : Word32) : (writeFw s j v).cfg = s.cfg := rfl
@[simp] theorem writeFw_globals (s : Processor rw) (j : Fin 64) (v : Word32) : (writeFw s j v).globals = s.globals := rfl
@[simp] theorem writeFw_windows (s : Processor rw) (j : Fin 64) (v : Word32) : (writeFw s j v).windows = s.windows := rfl
@[simp] theorem writeFw_cwp (s : Processor rw) (j : Fin 64) (v : Word32) : (writeFw s j v).cwp = s.cwp := rfl
@[simp] theorem writeFw_gl (s : Processor rw) (j : Fin 64) (v : Word32) : (writeFw s j v).gl = s.gl := rfl
@[simp] theorem writeFw_canSave (s : Processor rw) (j : Fin 64) (v : Word32) : (writeFw s j v).canSave = s.canSave := rfl
@[simp] theorem writeFw_canRestore (s : Processor rw) (j : Fin 64) (v : Word32) : (writeFw s j v).canRestore = s.canRestore := rfl
@[simp] theorem writeFw_otherWin (s : Processor rw) (j : Fin 64) (v : Word32) : (writeFw s j v).otherWin = s.otherWin := rfl
@[simp] theorem writeFw_cleanWin (s : Processor rw) (j : Fin 64) (v : Word32) : (writeFw s j v).cleanWin = s.cleanWin := rfl
@[simp] theorem writeFw_fw (s : Processor rw) (j : Fin 64) (v : Word32) : (writeFw s j v).fw = s.fw.set j v := rfl
@[simp] theorem writeFw_pc (s : Processor rw) (j : Fin 64) (v : Word32) : (writeFw s j v).pc = s.pc := rfl
@[simp] theorem writeFw_npc (s : Processor rw) (j : Fin 64) (v : Word32) : (writeFw s j v).npc = s.npc := rfl
@[simp] theorem writeFw_asi (s : Processor rw) (j : Fin 64) (v : Word32) : (writeFw s j v).asi = s.asi := rfl
@[simp] theorem writeFw_mem (s : Processor rw) (j : Fin 64) (v : Word32) : (writeFw s j v).mem = s.mem := rfl
@[simp] theorem writeFw_draws (s : Processor rw) (j : Fin 64) (v : Word32) : (writeFw s j v).draws = s.draws := rfl

end Sys2Proof.Machine
end

