-- ==== Sys2Proof/Laws/Memory.lean ====
section
/-! SUPPORT. Memory: read after write, bytes left alone, and the canonical form every operation keeps. -/

namespace Sys2Proof.Machine

variable {rw : Nat}

/-- Every listed key is above `a`. -/
theorem Memory.wf_cons {a : Nat} {b : Byte} {rest : Memory} :
    Memory.wf ((a, b) :: rest) = true ↔
      b ≠ unlistedByte ∧ (∀ c ∈ rest, a < c.1) ∧ Memory.wf rest = true := by
  simp [Memory.wf, and_assoc]

/-- A key below every listed one reads as the unlisted byte. -/
theorem Memory.byteAt_below {m : Memory} {k : Nat} (h : ∀ c ∈ m, k < c.1) : Memory.byteAt m k = unlistedByte := by
  induction m with
  | nil => rfl
  | cons c rest ih =>
    obtain ⟨a, b⟩ := c
    have hk : k < a := h (a, b) (by simp)
    rw [Memory.byteAt, if_neg (by omega)]
    exact ih fun c hc => h c (by simp [hc])

/-- A put leaves every other key's byte alone. -/
theorem Memory.byteAt_put_other (m : Memory) {k j : Nat} (v : Byte) (h : j ≠ k) :
    Memory.byteAt (Memory.put m k v) j = Memory.byteAt m j := by
  induction m with
  | nil =>
    by_cases hv : v = unlistedByte
    · simp [Memory.put, hv]
    · simp [Memory.put, hv, Memory.byteAt, h.symm]
  | cons c rest ih =>
    obtain ⟨a, b⟩ := c
    unfold Memory.put
    split
    · split
      · rfl
      · rw [Memory.byteAt, if_neg h.symm]
    · split
      · subst k
        split <;> simp [Memory.byteAt, h.symm]
      · simp only [Memory.byteAt, ih]

/-- A byte put is the byte read. -/
theorem Memory.byteAt_put_same {m : Memory} (hm : Memory.wf m = true) (k : Nat) (v : Byte) :
    Memory.byteAt (Memory.put m k v) k = v := by
  induction m with
  | nil =>
    by_cases hv : v = unlistedByte
    · simp [Memory.put, hv, Memory.byteAt]
    · simp [Memory.put, hv, Memory.byteAt]
  | cons c rest ih =>
    obtain ⟨a, b⟩ := c
    obtain ⟨-, hlt, hrest⟩ := Memory.wf_cons.mp hm
    unfold Memory.put
    split
    · rename_i hka
      split
      · rename_i hv
        rw [hv]
        refine Memory.byteAt_below fun c hc => ?_
        rcases List.mem_cons.mp hc with rfl | hc
        · exact hka
        · exact lt_trans hka (hlt c hc)
      · simp [Memory.byteAt]
    · split
      · rename_i hka
        subst hka
        split
        · rename_i hv
          rw [hv]
          exact Memory.byteAt_below hlt
        · simp [Memory.byteAt]
      · rename_i hne
        rw [Memory.byteAt, if_neg (fun e => hne e.symm)]
        exact ih hrest

/-- The keys listed after a put were listed before, or are the one put. -/
theorem Memory.mem_put {m : Memory} {k : Nat} {v : Byte} {c : Host.Cell} (h : c ∈ Memory.put m k v) :
    c.1 = k ∨ c ∈ m := by
  induction m with
  | nil =>
    by_cases hv : v = unlistedByte
    · simp [Memory.put, hv] at h
    · simp [Memory.put, hv] at h
      exact .inl (by rw [h])
  | cons d rest ih =>
    obtain ⟨a, b⟩ := d
    unfold Memory.put at h
    split at h
    · split at h
      · exact .inr h
      · rcases List.mem_cons.mp h with rfl | h
        · exact .inl rfl
        · exact .inr h
    · split at h
      · split at h
        · exact .inr (List.mem_cons_of_mem _ h)
        · rcases List.mem_cons.mp h with rfl | h
          · exact .inl rfl
          · exact .inr (List.mem_cons_of_mem _ h)
      · rcases List.mem_cons.mp h with rfl | h
        · exact .inr (by simp)
        · exact (ih h).imp id (List.mem_cons_of_mem _)

/-- A put keeps the canonical form. -/
theorem Memory.wf_put {m : Memory} (hm : Memory.wf m = true) (k : Nat) (v : Byte) :
    Memory.wf (Memory.put m k v) = true := by
  induction m with
  | nil =>
    by_cases hv : v = unlistedByte
    · simp [Memory.put, hv, Memory.wf]
    · simp [Memory.put, hv, Memory.wf]
  | cons c rest ih =>
    obtain ⟨a, b⟩ := c
    obtain ⟨hb, hlt, hrest⟩ := Memory.wf_cons.mp hm
    unfold Memory.put
    split
    · rename_i hka
      split
      · exact hm
      · rename_i hv
        refine Memory.wf_cons.mpr ⟨hv, fun c hc => ?_, hm⟩
        rcases List.mem_cons.mp hc with rfl | hc
        · exact hka
        · exact lt_trans hka (hlt c hc)
    · split
      · rename_i hka
        subst hka
        split
        · exact hrest
        · rename_i hv
          exact Memory.wf_cons.mpr ⟨hv, hlt, hrest⟩
      · refine Memory.wf_cons.mpr ⟨hb, fun c hc => ?_, ih hrest⟩
        rcases Memory.mem_put hc with h | h
        · omega
        · exact hlt c h

/-- A write of bytes keeps the canonical form. -/
theorem Memory.wf_memWrite {m : Memory} (hm : Memory.wf m = true) (ks : List Nat) (bs : List Byte) :
    Memory.wf (memWrite m ks bs) = true := by
  induction ks generalizing m bs with
  | nil => simpa [memWrite] using hm
  | cons k ks ih =>
    cases bs with
    | nil => simpa [memWrite] using hm
    | cons b bs => exact ih (Memory.wf_put hm k b) bs

/-- A write leaves every byte outside its keys alone. -/
theorem Memory.byteAt_memWrite_other (m : Memory) {ks : List Nat} (bs : List Byte) {j : Nat} (h : j ∉ ks) :
    Memory.byteAt (memWrite m ks bs) j = Memory.byteAt m j := by
  induction ks generalizing m bs with
  | nil => simp [memWrite]
  | cons k ks ih =>
    cases bs with
    | nil => simp [memWrite]
    | cons b bs =>
      simp only [List.mem_cons, not_or] at h
      rw [memWrite, ih _ _ h.2, Memory.byteAt_put_other _ _ h.1]

/-- What is read at the keys just written is what was written. -/
theorem memRead_memWrite {m : Memory} (hm : Memory.wf m = true) {ks : List Nat} (hks : ks.Nodup) {bs : List Byte}
    (hlen : ks.length = bs.length) : memRead (memWrite m ks bs) ks = bs := by
  induction ks generalizing m bs with
  | nil => cases bs with
    | nil => rfl
    | cons _ _ => simp at hlen
  | cons k ks ih =>
    cases bs with
    | nil => simp at hlen
    | cons b bs =>
      obtain ⟨hk, hks⟩ := List.nodup_cons.mp hks
      have hrest := ih (Memory.wf_put hm k b) hks (by simpa using hlen)
      simp only [memRead, List.map_cons, memWrite] at hrest ⊢
      rw [hrest, Memory.byteAt_memWrite_other _ _ hk, Memory.byteAt_put_same hm]

@[simp] theorem accessKeys_length (space : Nat) (a : Word rw) (n : Nat) : (accessKeys space a n).length = n := by
  induction n generalizing a with
  | zero => rfl
  | succ n ih => simp [accessKeys, ih]

/-- The keys of an access are those of its byte offsets. -/
theorem mem_accessKeys {space : Nat} {a : Word rw} {n k : Nat} :
    k ∈ accessKeys space a n ↔ ∃ j < n, k = byteKey space (a + BitVec.ofNat rw j) := by
  induction n generalizing a with
  | zero => simp [accessKeys]
  | succ n ih =>
    rw [accessKeys, List.mem_cons, ih]
    constructor
    · rintro (rfl | ⟨j, hj, rfl⟩)
      · exact ⟨0, by omega, by simp⟩
      · exact ⟨j + 1, by omega, by rw [BitVec.add_assoc]; congr 2; rw [BitVec.ofNat_add, BitVec.add_comm]; rfl⟩
    · rintro ⟨j, hj, rfl⟩
      cases j with
      | zero => exact .inl (by simp)
      | succ j =>
        exact .inr ⟨j, by omega, by rw [BitVec.add_assoc]; congr 2; rw [BitVec.ofNat_add, BitVec.add_comm]; rfl⟩

/-- Bytes of one space have different keys at different addresses. -/
theorem byteKey_inj {space : Nat} {a b : Word rw} (h : byteKey space a = byteKey space b) : a = b := by
  unfold byteKey at h
  exact BitVec.eq_of_toNat_eq (by omega)

/-- No access of at most `2^RW` bytes meets one byte twice. -/
theorem accessKeys_nodup (space : Nat) (a : Word rw) {n : Nat} (hn : n ≤ 2 ^ rw) : (accessKeys space a n).Nodup := by
  induction n generalizing a with
  | zero => simp [accessKeys]
  | succ n ih =>
    rw [accessKeys, List.nodup_cons, mem_accessKeys]
    refine ⟨?_, ih _ (by omega)⟩
    rintro ⟨j, hj, h⟩
    have h := byteKey_inj h
    have h1 : (1 : Word rw) + BitVec.ofNat rw j = 0 := by
      rw [BitVec.add_assoc] at h
      simpa using congrArg (fun x => x - a) h.symm
    have h2 : BitVec.ofNat rw (1 + j) = 0#rw := by rw [BitVec.ofNat_add]; exact h1
    have h3 := congrArg BitVec.toNat h2
    simp only [BitVec.toNat_ofNat, Nat.zero_mod] at h3
    rw [Nat.mod_eq_of_lt (by omega)] at h3
    omega

end Sys2Proof.Machine
end

