-- ==== Sys2Proof/Laws/Registers.lean ====
section
/-! SUPPORT. Physical registers: read after write, registers left alone; window arithmetic; the registers an address names. -/

namespace Sys2Proof.Machine

variable {rw : Nat}

/-! ## Window arithmetic -/

theorem nextWindow_lt {n : Nat} (c : Nat) (h : 0 < n) : nextWindow n c < n := Nat.mod_lt _ h

theorem prevWindow_lt {n : Nat} (c : Nat) (h : 0 < n) : prevWindow n c < n := Nat.mod_lt _ h

/-- One window up, without the modulo. -/
theorem nextWindow_eq {n c : Nat} (h : c < n) : nextWindow n c = if c + 1 = n then 0 else c + 1 := by
  unfold nextWindow
  split
  · rename_i e
    rw [e, Nat.mod_self]
  · exact Nat.mod_eq_of_lt (by omega)

/-- One window down, without the modulo. -/
theorem prevWindow_eq {n c : Nat} (h : c < n) : prevWindow n c = if c = 0 then n - 1 else c - 1 := by
  unfold prevWindow
  split
  · rename_i e
    subst e
    rw [Nat.zero_add]
    exact Nat.mod_eq_of_lt (by omega)
  · rw [show c + (n - 1) = c - 1 + n by omega, Nat.add_mod_right]
    exact Nat.mod_eq_of_lt (by omega)

/-- Down after up is where it began. -/
theorem prevWindow_nextWindow {n c : Nat} (h : c < n) : prevWindow n (nextWindow n c) = c := by
  have := nextWindow_lt c (show 0 < n by omega)
  rw [prevWindow_eq this, nextWindow_eq h]
  split <;> split <;> omega

/-- Up after down is where it began. -/
theorem nextWindow_prevWindow {n c : Nat} (h : c < n) : nextWindow n (prevWindow n c) = c := by
  have := prevWindow_lt c (show 0 < n by omega)
  rw [nextWindow_eq this, prevWindow_eq h]
  split <;> split <;> omega

/-- With two windows or more the window below is another one. -/
theorem prevWindow_ne {n c : Nat} (h : c < n) (hn : 2 ≤ n) : prevWindow n c ≠ c := by
  rw [prevWindow_eq h]
  split <;> omega

/-! ## Physical registers -/

/-- A read sees the two register files only. -/
theorem readSlot_congr {s t : Processor rw} (hg : t.globals = s.globals) (hw : t.windows = s.windows) (sl : Slot) :
    readSlot t sl = readSlot s sl := by
  cases sl <;> simp [readSlot, hg, hw]

@[simp] theorem readSlot_zero (s : Processor rw) : readSlot s .zero = 0 := rfl

@[simp] theorem readSlot_advancePc (s : Processor rw) (sl : Slot) : readSlot (advancePc s) sl = readSlot s sl :=
  readSlot_congr rfl rfl sl

@[simp] theorem readSlot_delayedJump (s : Processor rw) (t : Word rw) (sl : Slot) :
    readSlot (delayedJump s t) sl = readSlot s sl := readSlot_congr rfl rfl sl

@[simp] theorem readSlot_advanceWindow (s : Processor rw) (sl : Slot) : readSlot (advanceWindow s) sl = readSlot s sl :=
  readSlot_congr rfl rfl sl

@[simp] theorem readSlot_retreatWindow (s : Processor rw) (sl : Slot) : readSlot (retreatWindow s) sl = readSlot s sl :=
  readSlot_congr rfl rfl sl

@[simp] theorem readSlot_memory (s : Processor rw) (m : Memory) (sl : Slot) :
    readSlot { s with mem := m } sl = readSlot s sl := readSlot_congr rfl rfl sl

@[simp] theorem writeSlot_globals_length (s : Processor rw) (sl : Slot) (v : Word rw) :
    (writeSlot s sl v).globals.length = s.globals.length := by
  cases sl <;> simp [writeSlot]

@[simp] theorem writeSlot_windows_length (s : Processor rw) (sl : Slot) (v : Word rw) :
    (writeSlot s sl v).windows.length = s.windows.length := by
  cases sl <;> simp [writeSlot]

@[simp] theorem writeReg_globals_length (s : Processor rw) (i : RegNum) (v : Word rw) :
    (writeReg s i v).globals.length = s.globals.length := writeSlot_globals_length ..

@[simp] theorem writeReg_windows_length (s : Processor rw) (i : RegNum) (v : Word rw) :
    (writeReg s i v).windows.length = s.windows.length := writeSlot_windows_length ..

/-- A write leaves every other physical register alone. -/
theorem readSlot_writeSlot_other (s : Processor rw) {sl sl' : Slot} (v : Word rw) (h : sl' ≠ sl) :
    readSlot (writeSlot s sl v) sl' = readSlot s sl' := by
  cases sl with
  | zero => rfl
  | global g k =>
    cases sl' with
    | global g' k' =>
      simp only [writeSlot, readSlot, List.getElem?_modify]
      by_cases hg : g = g'
      · subst hg
        have hk : k.val ≠ k'.val := fun e => h (by rw [Fin.ext e])
        cases s.globals[g]? <;> simp [hk]
      · simp [hg]
    | _ => rfl
  | out w k =>
    cases sl' with
    | out w' k' =>
      simp only [writeSlot, readSlot, List.getElem?_modify]
      by_cases hw : w = w'
      · subst hw
        have hk : k.val ≠ k'.val := fun e => h (by rw [Fin.ext e])
        cases s.windows[w]? <;> simp [hk]
      · simp [hw]
    | loc w' k' =>
      simp only [writeSlot, readSlot, List.getElem?_modify]
      by_cases hw : w = w'
      · subst hw
        cases s.windows[w]? <;> simp
      · simp [hw]
    | _ => rfl
  | loc w k =>
    cases sl' with
    | loc w' k' =>
      simp only [writeSlot, readSlot, List.getElem?_modify]
      by_cases hw : w = w'
      · subst hw
        have hk : k.val ≠ k'.val := fun e => h (by rw [Fin.ext e])
        cases s.windows[w]? <;> simp [hk]
      · simp [hw]
    | out w' k' =>
      simp only [writeSlot, readSlot, List.getElem?_modify]
      by_cases hw : w = w'
      · subst hw
        cases s.windows[w]? <;> simp
      · simp [hw]
    | _ => rfl

/-- A write to a register the state stores is read back. -/
theorem readSlot_writeSlot_same {s : Processor rw} {sl : Slot} (v : Word rw) (hg : s.globals.length = s.cfg.maxGl + 1)
    (hw : s.windows.length = s.cfg.nWindows) (h : SlotExists s.cfg sl) : readSlot (writeSlot s sl v) sl = v := by
  cases sl with
  | zero => exact h.elim
  | global g k =>
    have : g < s.globals.length := by simp only [SlotExists] at h; omega
    simp [writeSlot, readSlot, this]
  | out w k =>
    have : w < s.windows.length := by simp only [SlotExists] at h; omega
    simp [writeSlot, readSlot, this]
  | loc w k =>
    have : w < s.windows.length := by simp only [SlotExists] at h; omega
    simp [writeSlot, readSlot, this]

/-- The 16 slots of a window are its locals and its outs. -/
theorem mem_windowSlots {w : Nat} {sl : Slot} :
    sl ∈ windowSlots w ↔ (∃ k, sl = .loc w k) ∨ (∃ k, sl = .out w k) := by
  simp [windowSlots, eq_comm]

/-- The draw of a window leaves every register but its 16 alone. -/
theorem readSlot_havocWindow_other (s : Processor rw) {w : Nat} {sl : Slot} (h : sl ∉ windowSlots w) :
    readSlot (havocWindow s w) sl = readSlot s sl := by
  rw [mem_windowSlots, not_or] at h
  cases sl with
  | zero => rfl
  | global g k => rfl
  | out w' k =>
    have : w ≠ w' := fun e => h.2 ⟨k, by rw [e]⟩
    simp [readSlot, this]
  | loc w' k =>
    have : w ≠ w' := fun e => h.1 ⟨k, by rw [e]⟩
    simp [readSlot, this]

@[simp] theorem havocWindow_windows_length (s : Processor rw) (w : Nat) :
    (havocWindow s w).windows.length = s.windows.length := by simp

/-! ## The register an address names -/

@[simp] theorem slotOf_zero (n c g : Nat) : slotOf n c g 0#5 = .zero := rfl

/-- Addresses 1 to 7 (R15). -/
theorem slotOf_global {n c g : Nat} {i : RegNum} (k : Fin 7) (h : i.toNat = k.val + 1) :
    slotOf n c g i = .global g k := by
  have := k.isLt
  rw [slotOf, dif_neg (by omega), dif_pos (by omega)]
  simp [h]

/-- Addresses 8 to 15 (R15). -/
theorem slotOf_out {n c g : Nat} {i : RegNum} (k : Fin 8) (h : i.toNat = k.val + 8) : slotOf n c g i = .out c k := by
  have := k.isLt
  rw [slotOf, dif_neg (by omega), dif_neg (by omega), dif_pos (by omega)]
  simp [h]

/-- Addresses 16 to 23 (R15). -/
theorem slotOf_loc {n c g : Nat} {i : RegNum} (k : Fin 8) (h : i.toNat = k.val + 16) : slotOf n c g i = .loc c k := by
  have := k.isLt
  rw [slotOf, dif_neg (by omega), dif_neg (by omega), dif_neg (by omega), dif_pos (by omega)]
  simp [h]

/-- Addresses 24 to 31 (R15). -/
theorem slotOf_in {n c g : Nat} {i : RegNum} (k : Fin 8) (h : i.toNat = k.val + 24) :
    slotOf n c g i = .out (prevWindow n c) k := by
  have := k.isLt
  rw [slotOf, dif_neg (by omega), dif_neg (by omega), dif_neg (by omega), dif_neg (by omega)]
  simp [h]

/-- The 32 addresses, group by group (R10). -/
theorem regNum_cases (i : RegNum) :
    i = 0 ∨ (∃ k : Fin 7, i.toNat = k.val + 1) ∨ (∃ k : Fin 8, i.toNat = k.val + 8) ∨
      (∃ k : Fin 8, i.toNat = k.val + 16) ∨ (∃ k : Fin 8, i.toNat = k.val + 24) := by
  have hi := i.isLt
  rcases Nat.eq_zero_or_pos i.toNat with h | h
  · exact .inl (BitVec.eq_of_toNat_eq h)
  by_cases h1 : i.toNat < 8
  · exact .inr (.inl ⟨⟨i.toNat - 1, by omega⟩, by simp; omega⟩)
  by_cases h2 : i.toNat < 16
  · exact .inr (.inr (.inl ⟨⟨i.toNat - 8, by omega⟩, by simp; omega⟩))
  by_cases h3 : i.toNat < 24
  · exact .inr (.inr (.inr (.inl ⟨⟨i.toNat - 16, by omega⟩, by simp; omega⟩)))
  · exact .inr (.inr (.inr (.inr ⟨⟨i.toNat - 24, by omega⟩, by simp; omega⟩)))

/-- Every address but 0 names a register the configuration has. -/
theorem slotExists_slotOf {c : Config} {cwp gl : Nat} {i : RegNum} (hi : i ≠ 0) (hc : cwp < c.nWindows)
    (hg : gl ≤ c.maxGl) : SlotExists c (slotOf c.nWindows cwp gl i) := by
  rcases regNum_cases i with h | ⟨k, h⟩ | ⟨k, h⟩ | ⟨k, h⟩ | ⟨k, h⟩
  · exact absurd h hi
  · rw [slotOf_global k h]; exact hg
  · rw [slotOf_out k h]; exact hc
  · rw [slotOf_loc k h]; exact hc
  · rw [slotOf_in k h]; exact prevWindow_lt _ (by omega)

@[simp] theorem regSlot_writeReg (s : Processor rw) (i j : RegNum) (v : Word rw) :
    regSlot (writeReg s i v) j = regSlot s j := by
  simp [regSlot]

/-- `x[i] <- v` leaves every physical register but the one it names alone. -/
theorem readSlot_writeReg_other (s : Processor rw) {i : RegNum} {sl : Slot} (v : Word rw) (h : sl ≠ regSlot s i) :
    readSlot (writeReg s i v) sl = readSlot s sl := readSlot_writeSlot_other s v h

@[simp] theorem writeReg_zero (s : Processor rw) (v : Word rw) : writeReg s 0#5 v = s := rfl

@[simp] theorem readReg_zero (s : Processor rw) : readReg s 0#5 = 0 := rfl

/-- `x[i] <- v` is read back. -/
theorem readReg_writeReg_same {s : Processor rw} (hs : s.wf) {i : RegNum} (hi : i ≠ 0) (v : Word rw) :
    readReg (writeReg s i v) i = v := by
  obtain ⟨-, hg, hw, hc, hl, -⟩ := hs
  rw [readReg, regSlot_writeReg]
  exact readSlot_writeSlot_same v hg hw (slotExists_slotOf hi hc hl)

/-- Different addresses name different registers, in one window and global set (R15). -/
theorem slotOf_inj {n c g : Nat} (hc : c < n) (hn : 2 ≤ n) {i j : RegNum} (h : slotOf n c g i = slotOf n c g j) :
    i = j := by
  have hp := prevWindow_ne hc hn
  have key : ∀ r : RegNum, (r.toNat = 0 ∧ slotOf n c g r = .zero) ∨
      (∃ k : Fin 7, r.toNat = k.val + 1 ∧ slotOf n c g r = .global g k) ∨
      (∃ k : Fin 8, r.toNat = k.val + 8 ∧ slotOf n c g r = .out c k) ∨
      (∃ k : Fin 8, r.toNat = k.val + 16 ∧ slotOf n c g r = .loc c k) ∨
      (∃ k : Fin 8, r.toNat = k.val + 24 ∧ slotOf n c g r = .out (prevWindow n c) k) := by
    intro r
    rcases regNum_cases r with h | ⟨k, h⟩ | ⟨k, h⟩ | ⟨k, h⟩ | ⟨k, h⟩
    · subst h; exact .inl ⟨rfl, rfl⟩
    · exact .inr (.inl ⟨k, h, slotOf_global k h⟩)
    · exact .inr (.inr (.inl ⟨k, h, slotOf_out k h⟩))
    · exact .inr (.inr (.inr (.inl ⟨k, h, slotOf_loc k h⟩)))
    · exact .inr (.inr (.inr (.inr ⟨k, h, slotOf_in k h⟩)))
  apply BitVec.eq_of_toNat_eq
  rcases key i with ⟨h1, h2⟩ | ⟨k, h1, h2⟩ | ⟨k, h1, h2⟩ | ⟨k, h1, h2⟩ | ⟨k, h1, h2⟩ <;>
    rcases key j with ⟨h3, h4⟩ | ⟨l, h3, h4⟩ | ⟨l, h3, h4⟩ | ⟨l, h3, h4⟩ | ⟨l, h3, h4⟩ <;>
    rw [h2, h4] at h <;> clear key h2 h4 <;> simp_all [eq_comm]

/-- An address in the window a RESTORE moves into names none of the 16 registers of the window left (R63: `N >= 3`). -/
theorem slotOf_prevWindow_not_mem {n c g : Nat} (hc : c < n) (hn : 3 ≤ n) (i : RegNum) :
    slotOf n (prevWindow n c) g i ∉ windowSlots c := by
  have h1 := prevWindow_ne hc (by omega)
  have h2 : prevWindow n (prevWindow n c) ≠ c := by
    rw [prevWindow_eq (prevWindow_lt _ (by omega)), prevWindow_eq hc]
    split <;> split <;> omega
  rw [mem_windowSlots]
  rcases regNum_cases i with h | ⟨k, h⟩ | ⟨k, h⟩ | ⟨k, h⟩ | ⟨k, h⟩
  · subst h; simp
  · simp [slotOf_global k h]
  · simp [slotOf_out k h, h1]
  · simp [slotOf_loc k h, h1]
  · simp [slotOf_in k h, h2]

/-- SAVE's move keeps a state well-formed. -/
theorem wf_advanceWindow {s : Processor rw} (hs : s.wf) : (advanceWindow s).wf := by
  obtain ⟨h1, h2, h3, h4, h5, h6⟩ := hs
  exact ⟨h1, h2, h3, nextWindow_lt _ (by have := h1.2.1; simp; omega), h5, h6⟩

/-- RESTORE's move and draws keep a state well-formed. -/
theorem wf_havocWindow_retreatWindow {s : Processor rw} (hs : s.wf) : (havocWindow (retreatWindow s) s.cwp).wf := by
  obtain ⟨h1, h2, h3, h4, h5, h6⟩ := hs
  exact ⟨h1, h2, by simpa using h3, prevWindow_lt _ (by have := h1.2.1; simp; omega), h5, h6⟩

/-- A register write keeps a state well-formed. -/
theorem wf_writeReg {s : Processor rw} (hs : s.wf) (i : RegNum) (v : Word rw) : (writeReg s i v).wf := by
  obtain ⟨h1, h2, h3, h4, h5, h6⟩ := hs
  refine ⟨?_, ?_, ?_, ?_, ?_, ?_⟩ <;> simpa

end Sys2Proof.Machine
end

