-- ==== Sys2Proof/Laws/Instructions.lean ====
section
/-! SUPPORT. What each shared operation and each meaning can do, said once: if it answers a next state, then which one and
under which conditions. Every invariant is derived from these. -/

namespace Sys2Proof.Machine

variable {rw : Nat}

/-- Two states of one register width are equal where their processors are. -/
@[simp] theorem state_mk_inj {s t : Processor rw} : State.mk rw s = State.mk rw t ↔ s = t := by
  rw [State.mk.injEq, heq_eq_eq, eq_self, true_and]

/-- Going on answers the state it is given. -/
@[simp] theorem goOn_eq {s t : Processor rw} : goOn s = .next ⟨rw, t⟩ ↔ s = t := by
  rw [goOn, Host.Outcome.next.injEq, state_mk_inj]

/-- A load that completes: aligned, mapped, and both registers of the pair written. -/
theorem loadTwin_next {space : Nat} {rd : RegNum} {a : Word rw} {s t : Processor rw} (h : loadTwin space rd a s = .next ⟨rw, t⟩) :
    alignedTwin a = true ∧ isMapped s (twinKeys space a) = true ∧
      t = advancePc (writeReg (writeReg s rd ((twinLow s space a).zeroExtend rw))
        (pairOdd rd) ((twinHigh s space a).zeroExtend rw)) := by
  unfold loadTwin at h
  split at h
  · cases h
  · split at h
    · cases h
    · rename_i h1 h2
      exact ⟨by simpa using h1, by simpa using h2, (goOn_eq.mp h).symm⟩

/-- A store that completes: aligned, mapped, outside the program text, and eight bytes written. -/
theorem storeTwin_next {space : Nat} {rd : RegNum} {a : Word rw} {s t : Processor rw} (h : storeTwin space rd a s = .next ⟨rw, t⟩) :
    alignedTwin a = true ∧ isMapped s (twinKeys space a) = true ∧ hitsText s (twinKeys space a) = false ∧
      t = advancePc { s with mem := memWrite s.mem (twinKeys space a) (twinBytes s rd) } := by
  unfold storeTwin at h
  split at h
  · cases h
  · split at h
    · cases h
    · split at h
      · cases h
      · rename_i h1 h2 h3
        exact ⟨by simpa using h1, by simpa using h2, by simpa using h3, (goOn_eq.mp h).symm⟩

/-- An access through `altSpace` that completes does so in the space the identifier selects. -/
theorem inAltSpace_next {s : Processor rw} {asi : BitVec 8} {k : Nat → Result} {t : Processor rw} (h : inAltSpace s asi k = .next ⟨rw, t⟩) :
    ∃ n, altTargetOf s asi = some (.space n) ∧ k n = .next ⟨rw, t⟩ := by
  unfold inAltSpace at h
  split at h
  · cases h
  · cases h
  · rename_i n hn
    exact ⟨n, hn, h⟩

theorem execCall_next {d : BitVec 30} {s t : Processor rw} (h : execCall d ⟨rw, s⟩ = .next ⟨rw, t⟩) :
    inDelaySlot s = false ∧ t = delayedJump (writeReg s 15 s.pc) (callTarget s d) := by
  unfold execCall at h
  split at h
  · cases h
  · rename_i h1
    exact ⟨by simpa using h1, (goOn_eq.mp h).symm⟩

theorem execJmpl_next {rd rs1 : RegNum} {op2 : Operand2} {s t : Processor rw} (h : execJmpl rd rs1 op2 ⟨rw, s⟩ = .next ⟨rw, t⟩) :
    inDelaySlot s = false ∧ alignedTarget (sumOf s rs1 op2) = true ∧
      t = delayedJump (writeReg s rd s.pc) (sumOf s rs1 op2) := by
  unfold execJmpl at h
  split at h
  · cases h
  · split at h
    · cases h
    · rename_i h1 h2
      exact ⟨by simpa using h1, by simpa using h2, (goOn_eq.mp h).symm⟩

theorem execSave_next {rd rs1 : RegNum} {op2 : Operand2} {s t : Processor rw} (h : execSave rd rs1 op2 ⟨rw, s⟩ = .next ⟨rw, t⟩) :
    s.canSave ≠ 0 ∧ s.canRestore < s.cleanWin ∧
      t = advancePc (writeReg (advanceWindow s) rd (sumOf s rs1 op2)) := by
  unfold execSave at h
  split at h
  · cases h
  · split at h
    · cases h
    · split at h
      · cases h
      · rename_i h1 h2 h3
        simp only [windowOverflow, cleanWindowInconsistent, cleanWindowNeeded, beq_iff_eq, decide_eq_true_eq] at h1 h2 h3
        exact ⟨h1, by omega, (goOn_eq.mp h).symm⟩

theorem execRestore_next {rd rs1 : RegNum} {op2 : Operand2} {s t : Processor rw} (h : execRestore rd rs1 op2 ⟨rw, s⟩ = .next ⟨rw, t⟩) :
    s.canRestore ≠ 0 ∧ t = advancePc (writeReg (havocWindow (retreatWindow s) s.cwp) rd (sumOf s rs1 op2)) := by
  unfold execRestore at h
  split at h
  · cases h
  · rename_i h1
    exact ⟨by simpa [windowUnderflow] using h1, (goOn_eq.mp h).symm⟩

theorem execLdtw_next {rd rs1 : RegNum} {op2 : Operand2} {s t : Processor rw} (h : execLdtw rd rs1 op2 ⟨rw, s⟩ = .next ⟨rw, t⟩) :
    oddPair rd = false ∧ loadTwin 0 rd (sumOf s rs1 op2) s = .next ⟨rw, t⟩ := by
  unfold execLdtw at h
  split at h
  · cases h
  · rename_i h1
    exact ⟨by simpa using h1, h⟩

theorem execLdtwa_next {rd rs1 : RegNum} {op2 : AltOperand} {s t : Processor rw} (h : execLdtwa rd rs1 op2 ⟨rw, s⟩ = .next ⟨rw, t⟩) :
    oddPair rd = false ∧ ∃ n, AltSpaceIs s op2 n ∧ loadTwin n rd (altSumOf s rs1 op2) s = .next ⟨rw, t⟩ := by
  unfold execLdtwa at h
  split at h
  · cases h
  · rename_i h1
    exact ⟨by simpa using h1, inAltSpace_next h⟩

theorem execSttw_next {rd rs1 : RegNum} {op2 : Operand2} {s t : Processor rw} (h : execSttw rd rs1 op2 ⟨rw, s⟩ = .next ⟨rw, t⟩) :
    oddPair rd = false ∧ storeTwin 0 rd (sumOf s rs1 op2) s = .next ⟨rw, t⟩ := by
  unfold execSttw at h
  split at h
  · cases h
  · rename_i h1
    exact ⟨by simpa using h1, h⟩

theorem execSttwa_next {rd rs1 : RegNum} {op2 : AltOperand} {s t : Processor rw} (h : execSttwa rd rs1 op2 ⟨rw, s⟩ = .next ⟨rw, t⟩) :
    oddPair rd = false ∧ ∃ n, AltSpaceIs s op2 n ∧ storeTwin n rd (altSumOf s rs1 op2) s = .next ⟨rw, t⟩ := by
  unfold execSttwa at h
  split at h
  · cases h
  · rename_i h1
    exact ⟨by simpa using h1, inAltSpace_next h⟩

/-- What a step can do: every next state is that of one instruction, fetched and decoded at `pc`. -/
theorem step_next {s t : Processor rw} (h : step ⟨rw, s⟩ = .next ⟨rw, t⟩) :
    ∃ w i, fetchWord s = .ok w ∧ decodeWord w = .ok i ∧ exec i ⟨rw, s⟩ = .next ⟨rw, t⟩ := by
  unfold step at h
  split at h
  · cases h
  · rename_i w hw
    split at h
    · cases h
    · rename_i i hi
      exact ⟨w, i, hw, hi, h⟩

/-- No instruction changes the register width. -/
theorem exec_keeps_rw {i : Instr} {s u : State} (h : exec i s = .next u) : ∃ t : Processor s.rw, u = ⟨s.rw, t⟩ := by
  cases i <;> simp only [exec, execCall, execJmpl, execSave, execRestore, execLdtw, execLdtwa, execSttw, execSttwa, loadTwin,
    storeTwin, inAltSpace] at h <;> repeat' split at h
  all_goals first
    | cases h; exact ⟨_, rfl⟩
    | cases h

/-- No step changes the register width. -/
theorem step_keeps_rw {s u : State} (h : step s = .next u) : ∃ t : Processor s.rw, u = ⟨s.rw, t⟩ := by
  unfold step at h
  split at h
  · cases h
  · split at h
    · cases h
    · exact exec_keeps_rw h

/-- What one instruction can do: its next state is one of four shapes, a call, a window movement, a load or a store. -/
theorem exec_next {i : Instr} {s t : Processor rw} (h : exec i ⟨rw, s⟩ = .next ⟨rw, t⟩) :
    (∃ rd target, inDelaySlot s = false ∧ t = delayedJump (writeReg s rd s.pc) target ∧
      ((∃ d, i = .call d ∧ rd = 15 ∧ target = callTarget s d) ∨
        (∃ rs1 op2, i = .jmpl rd rs1 op2 ∧ target = sumOf s rs1 op2 ∧ alignedTarget target = true))) ∨
    (∃ rd rs1 op2, i = .save rd rs1 op2 ∧ s.canSave ≠ 0 ∧ s.canRestore < s.cleanWin ∧
      t = advancePc (writeReg (advanceWindow s) rd (sumOf s rs1 op2))) ∨
    (∃ rd rs1 op2, i = .restore rd rs1 op2 ∧ s.canRestore ≠ 0 ∧
      t = advancePc (writeReg (havocWindow (retreatWindow s) s.cwp) rd (sumOf s rs1 op2))) ∨
    (∃ rd lo hi, ((∃ rs1 op2, i = .ldtw rd rs1 op2) ∨ (∃ rs1 op2, i = .ldtwa rd rs1 op2)) ∧
      t = advancePc (writeReg (writeReg s rd lo) (pairOdd rd) hi)) ∨
    (∃ rd ks bs, ((∃ rs1 op2, i = .sttw rd rs1 op2) ∨ (∃ rs1 op2, i = .sttwa rd rs1 op2)) ∧ hitsText s ks = false ∧
      t = advancePc { s with mem := memWrite s.mem ks bs }) := by
  cases i with
  | call d =>
    obtain ⟨h1, rfl⟩ := execCall_next h
    exact .inl ⟨15, _, h1, rfl, .inl ⟨d, rfl, rfl, rfl⟩⟩
  | jmpl rd rs1 op2 =>
    obtain ⟨h1, h2, rfl⟩ := execJmpl_next h
    exact .inl ⟨rd, _, h1, rfl, .inr ⟨rs1, op2, rfl, rfl, h2⟩⟩
  | save rd rs1 op2 =>
    obtain ⟨h1, h2, rfl⟩ := execSave_next h
    exact .inr (.inl ⟨rd, rs1, op2, rfl, h1, h2, rfl⟩)
  | restore rd rs1 op2 =>
    obtain ⟨h1, rfl⟩ := execRestore_next h
    exact .inr (.inr (.inl ⟨rd, rs1, op2, rfl, h1, rfl⟩))
  | ldtw rd rs1 op2 =>
    obtain ⟨-, h⟩ := execLdtw_next h
    obtain ⟨-, -, rfl⟩ := loadTwin_next h
    exact .inr (.inr (.inr (.inl ⟨rd, _, _, .inl ⟨rs1, op2, rfl⟩, rfl⟩)))
  | ldtwa rd rs1 op2 =>
    obtain ⟨-, n, -, h⟩ := execLdtwa_next h
    obtain ⟨-, -, rfl⟩ := loadTwin_next h
    exact .inr (.inr (.inr (.inl ⟨rd, _, _, .inr ⟨rs1, op2, rfl⟩, rfl⟩)))
  | sttw rd rs1 op2 =>
    obtain ⟨-, h⟩ := execSttw_next h
    obtain ⟨-, -, ht, rfl⟩ := storeTwin_next h
    exact .inr (.inr (.inr (.inr ⟨rd, _, _, .inl ⟨rs1, op2, rfl⟩, ht, rfl⟩)))
  | sttwa rd rs1 op2 =>
    obtain ⟨-, n, -, h⟩ := execSttwa_next h
    obtain ⟨-, -, ht, rfl⟩ := storeTwin_next h
    exact .inr (.inr (.inr (.inr ⟨rd, _, _, .inr ⟨rs1, op2, rfl⟩, ht, rfl⟩)))

end Sys2Proof.Machine
end

