-- ==== Sys2Proof/Laws/PerInstr.lean ====
section
/-! SUPPORT. A statement about every instruction as syntax: its word carries its row's pattern (30_encoding.md R54). -/

namespace Sys2Proof.Laws.Encoding

/-- The encoder's word matches the row of the opcode map. -/
def Statement (i : Instr) : Prop := hasPattern (encode i) (rowMask i) (rowMatch i) = true

/-- A format 3 word bit by bit: which field each bit belongs to (R52). -/
theorem format3_getLsbD (op : BitVec 2) (rd : RegNum) (op3 : BitVec 6) (rs1 : RegNum) (low14 : BitVec 14) (j : Nat) :
    (format3 op rd op3 rs1 low14).getLsbD j =
      if j < 14 then low14.getLsbD j
      else if j < 19 then rs1.getLsbD (j - 14)
      else if j < 25 then op3.getLsbD (j - 19)
      else if j < 30 then rd.getLsbD (j - 25)
      else op.getLsbD (j - 30) := by
  unfold format3
  rw [BitVec.getLsbD_append, BitVec.getLsbD_append, BitVec.getLsbD_append, BitVec.getLsbD_append]
  by_cases h1 : j < 14
  · simp [h1]
  by_cases h2 : j < 19
  · simp [h1, h2, show j - 14 < 5 by omega]
  by_cases h3 : j < 25
  · simp [h1, h2, h3, show ¬ j - 14 < 5 by omega, show j - 14 - 5 = j - 19 by omega]
    omega
  by_cases h4 : j < 30
  · simp [h1, h2, h3, h4, show ¬ j - 14 < 5 by omega, show ¬ j - 14 - 5 < 6 by omega,
      show j - 14 - 5 - 6 = j - 25 by omega]
    omega
  · simp [h1, h2, h3, h4, show ¬ j - 14 < 5 by omega, show ¬ j - 14 - 5 < 6 by omega,
      show ¬ j - 14 - 5 - 6 < 5 by omega, show j - 14 - 5 - 6 - 5 = j - 30 by omega]

/-- A format 3 word under the format 3 mask is its `op` and `op3` fields. -/
theorem format3_and_mask (op : BitVec 2) (rd : RegNum) (op3 : BitVec 6) (rs1 : RegNum) (low14 : BitVec 14) :
    format3 op rd op3 rs1 low14 &&& maskFormat3 = format3 op 0 op3 0 0 := by
  apply BitVec.eq_of_getLsbD_eq
  intro j hj
  rw [BitVec.getLsbD_and, format3_getLsbD, format3_getLsbD, maskFormat3]
  interval_cases j <;> simp

theorem call (disp30 : BitVec 30) : Statement (.call disp30) := by
  simp only [Statement, hasPattern, encode, rowMask, rowMatch, beq_iff_eq, maskFormat1, matchCall]
  ext j hj
  simp only [BitVec.getElem_and, BitVec.getElem_append]
  interval_cases j <;> simp

/-- What is left of a format 3 instruction's pattern once its registers and operand are masked out. -/
theorem format3_pattern {op : BitVec 2} {op3 : BitVec 6} {pat : Word32} (h : format3 op 0 op3 0 0 = pat)
    (rd rs1 : RegNum) (low14 : BitVec 14) : hasPattern (format3 op rd op3 rs1 low14) maskFormat3 pat = true := by
  rw [hasPattern, format3_and_mask, h, beq_self_eq_true]

theorem jmpl (rd rs1 : RegNum) (op2 : Operand2) : Statement (.jmpl rd rs1 op2) :=
  format3_pattern (show format3 2 0 0x38 0 0 = matchJmpl by decide) rd rs1 _

theorem save (rd rs1 : RegNum) (op2 : Operand2) : Statement (.save rd rs1 op2) :=
  format3_pattern (show format3 2 0 0x3C 0 0 = matchSave by decide) rd rs1 _

theorem restore (rd rs1 : RegNum) (op2 : Operand2) : Statement (.restore rd rs1 op2) :=
  format3_pattern (show format3 2 0 0x3D 0 0 = matchRestore by decide) rd rs1 _

theorem ldtw (rd rs1 : RegNum) (op2 : Operand2) : Statement (.ldtw rd rs1 op2) :=
  format3_pattern (show format3 3 0 0x03 0 0 = matchLdtw by decide) rd rs1 _

theorem ldtwa (rd rs1 : RegNum) (op2 : AltOperand) : Statement (.ldtwa rd rs1 op2) :=
  format3_pattern (show format3 3 0 0x13 0 0 = matchLdtwa by decide) rd rs1 _

theorem sttw (rd rs1 : RegNum) (op2 : Operand2) : Statement (.sttw rd rs1 op2) :=
  format3_pattern (show format3 3 0 0x07 0 0 = matchSttw by decide) rd rs1 _

theorem sttwa (rd rs1 : RegNum) (op2 : AltOperand) : Statement (.sttwa rd rs1 op2) :=
  format3_pattern (show format3 3 0 0x17 0 0 = matchSttwa by decide) rd rs1 _


/-- The eight rows of the opcode map, mask and match (R54). -/
def opcodeRows : List (Word32 × Word32) :=
  [(maskFormat1, matchCall), (maskFormat3, matchJmpl), (maskFormat3, matchSave), (maskFormat3, matchRestore),
   (maskFormat3, matchLdtw), (maskFormat3, matchLdtwa), (maskFormat3, matchSttw), (maskFormat3, matchSttwa)]

/-- "The eight patterns are disjoint" (R54): two rows differ in a bit both masks look at. -/
theorem opcodeRows_disjoint :
    opcodeRows.Pairwise (fun p q => p.1 &&& q.1 &&& (p.2 ^^^ q.2) ≠ 0) := by decide

end Sys2Proof.Laws.Encoding
end

