-- ==== Sys2Proof/Laws/Words.lean ====
section
/-! SUPPORT. Words and their bytes, alignment as remainders, the keys of an access one by one. -/

namespace Sys2Proof.Machine

variable {rw : Nat}

/-- R88's test on bits 2:0, as a remainder. -/
theorem alignedTwin_iff (a : Word rw) : alignedTwin a = true ↔ a.toNat % 8 = 0 := by
  rw [alignedTwin, beq_iff_eq, ← BitVec.toNat_inj]
  simp [BitVec.extractLsb'_toNat]

/-- R72's test on bits 1:0, as a remainder. -/
theorem alignedTarget_iff (a : Word rw) : alignedTarget a = true ↔ a.toNat % 4 = 0 := by
  rw [alignedTarget, beq_iff_eq, ← BitVec.toNat_inj]
  simp [BitVec.extractLsb'_toNat]

/-- R80's test on bit 0, as a remainder. -/
theorem oddPair_iff (rd : RegNum) : oddPair rd = true ↔ rd.toNat % 2 = 1 := by
  revert rd; decide

/-- The two registers of a pair are different, and the odd one is not R[0]. -/
theorem pairOdd_ne {rd : RegNum} (h : oddPair rd = false) : pairOdd rd ≠ rd ∧ pairOdd rd ≠ 0 := by
  revert rd; decide

/-- A word comes back from its bytes. -/
theorem bigEndianWord_extract (w : Word32) :
    bigEndianWord (w.extractLsb' 24 8) (w.extractLsb' 16 8) (w.extractLsb' 8 8) (w.extractLsb' 0 8) = w := by
  apply BitVec.eq_of_getLsbD_eq
  intro j hj
  rw [bigEndianWord, BitVec.getLsbD_append, BitVec.getLsbD_append, BitVec.getLsbD_append]
  simp only [BitVec.getLsbD_extractLsb']
  interval_cases j <;> simp

/-- Four bytes come back from their word. -/
theorem bigEndianBytes_word (b0 b1 b2 b3 : Byte) : bigEndianBytes (bigEndianWord b0 b1 b2 b3) = [b0, b1, b2, b3] := by
  simp only [bigEndianBytes, bigEndianWord, List.cons.injEq, and_true]
  refine ⟨?_, ?_, ?_, ?_⟩ <;> apply BitVec.eq_of_getLsbD_eq <;> intro j hj <;>
    rw [BitVec.getLsbD_extractLsb', BitVec.getLsbD_append, BitVec.getLsbD_append, BitVec.getLsbD_append] <;>
    interval_cases j <;> simp

@[simp] theorem bytes32_length (be : Bool) (w : Word32) : (bytes32 be w).length = 4 := by cases be <;> rfl

/-- The keys of a twin word: those of the word at `a`, then those of the word at `a + 4` (R88). -/
theorem twinKeys_eq (space : Nat) (a : Word rw) :
    twinKeys space a = [byteKey space a, byteKey space (a + 1), byteKey space (a + 2), byteKey space (a + 3),
      byteKey space (a + 4), byteKey space (a + 4 + 1), byteKey space (a + 4 + 2), byteKey space (a + 4 + 3)] := by
  simp only [twinKeys, accessKeys, BitVec.add_assoc, BitVec.ofNat_eq_ofNat, ← BitVec.ofNat_add]

theorem twinLow_eq (s : Processor rw) (space : Nat) (a : Word rw) : twinLow s space a = wordAt s space a := by
  simp [twinLow, twinKeys_eq, memRead, wordAt]

theorem twinHigh_eq (s : Processor rw) (space : Nat) (a : Word rw) : twinHigh s space a = wordAt s space (a + 4) := by
  simp only [twinHigh, twinKeys_eq, memRead, wordAt]; rfl

/-- The keys of the instruction word at `pc`. -/
theorem fetchKeys_eq (s : Processor rw) :
    fetchKeys s = [byteKey 0 s.pc, byteKey 0 (s.pc + 1), byteKey 0 (s.pc + 1 + 1), byteKey 0 (s.pc + 1 + 1 + 1)] := rfl

end Sys2Proof.Machine
end

