-- ==== Sys2Proof/Tests/Slice0.lean ====
section
/-! SUPPORT. Tests, each with the vector of 95_test_vectors.md (`V<n>`, `S<n>`) or the rule its expected result comes from, and
one witness for the hypotheses of every statement that has any. -/

namespace Sys2Proof.Machine.Tests

/-! ## Helpers -/

/-- The outcome of one instruction word, at the instruction level: what `step` does once the word is fetched. -/
def runWord (s : Processor 64) (w : Word32) : Result :=
  match decodeWord w with
  | .ok i => exec i ⟨64, s⟩
  | .error e => .refused (refusalOf e)

/-- The launch state with the word `w` placed at `pc`. -/
def placed (w : Nat) : Processor 64 := (State.reset.withFetchWord 32 w).proc

def nextThen (r : Result) (p : {rw : Nat} → Processor rw → Bool) : Bool :=
  match r with
  | .next t => p t.proc
  | .fault _ => false
  | .refused _ => false

def faultsWith (r : Result) (f : Fault) : Bool :=
  match r with
  | .next _ => false
  | .fault g => g == f
  | .refused _ => false

def refusesWith (r : Result) (f : Refusal) : Bool :=
  match r with
  | .next _ => false
  | .fault _ => false
  | .refused g => g == f

def isNext (r : Result) : Bool := nextThen r (fun _ => true)

theorem exists_of_isNext {r : Result} (h : isNext r = true) : ∃ t, r = .next t := by
  cases r with
  | next t => exact ⟨t, rfl⟩
  | fault f => simp [isNext, nextThen] at h
  | refused f => simp [isNext, nextThen] at h

theorem exec_exists {rw : Nat} {i : Instr} {s : Processor rw} (h : isNext (exec i ⟨rw, s⟩) = true) :
    ∃ t, exec i ⟨rw, s⟩ = .next ⟨rw, t⟩ := by
  obtain ⟨u, hu⟩ := exists_of_isNext h
  obtain ⟨t, rfl⟩ := exec_keeps_rw hu
  exact ⟨t, hu⟩

theorem step_exists {rw : Nat} {s : Processor rw} (h : isNext (step ⟨rw, s⟩) = true) :
    ∃ t, step ⟨rw, s⟩ = .next ⟨rw, t⟩ := by
  obtain ⟨u, hu⟩ := exists_of_isNext h
  obtain ⟨t, rfl⟩ := step_keeps_rw hu
  exact ⟨t, hu⟩

theorem eq_of_faultsWith {r : Result} {f : Fault} (h : faultsWith r f = true) : r = .fault f := by
  cases r <;> simp_all [faultsWith]

theorem eq_of_refusesWith {r : Result} {f : Refusal} (h : refusesWith r f = true) : r = .refused f := by
  cases r <;> simp_all [refusesWith]

/-- The start state of 95_test_vectors.md section 2.2 with some R registers set. -/
def regs (l : List (RegNum × Word 64)) : Processor 64 := l.foldl (fun s p => writeReg s p.1 p.2) Processor.reset

def at4000 (s : Processor 64) : Processor 64 := { s with pc := 0x4000, npc := 0x4004 }

/-- Memory bytes from `a` up, in the data space. -/
def poke (s : Processor 64) (a : Word 64) (bs : List Byte) : Processor 64 :=
  { s with mem := memWrite s.mem (accessKeys 0 a bs.length) bs }

def peek {rw : Nat} (s : Processor rw) (space : Nat) (a : Word rw) (n : Nat) :
  List Byte := memRead s.mem (accessKeys space a n)

/-- `altSpace` supplied: identifier 0x80 is the data space, 0x81 a space of its own, 0x82 a trap, and the processor's
identifier register holds 0x81. -/
def supplied (s : Processor 64) : Processor 64 :=
  { s with
    asi := 0x81
    cfg := { s.cfg with
      mapped := ⟨2 ^ 64, 2 ^ 64⟩ :: s.cfg.mapped
      altSpace := some [(0x80, .space 0), (0x81, .space 1), (0x82, .trap 9)] } }

/-- Bytes 0x100 to 0x107 are program text. -/
def textAt100 (s : Processor 64) : Processor 64 := { s with cfg := { s.cfg with text := [⟨0x100, 8⟩] } }

/-- Only bytes below 0x200 are mapped. -/
def mappedBelow200 (s : Processor 64) : Processor 64 := { s with cfg := { s.cfg with mapped := [⟨0, 0x200⟩] } }

/-- CANSAVE 0 and CANRESTORE 5, as V21 has them. -/
def full : Processor 64 := { Processor.reset with canSave := 0, canRestore := 5 }

/-- CANRESTORE 0 and CANSAVE 5, as V28 has them. -/
def bottom : Processor 64 := { Processor.reset with canSave := 5, canRestore := 0 }

/-! ## Well-formedness (R80, R104): one ill-formed term for each check -/

theorem test_wf_refuses_odd_ldtw : (Instr.ldtw 3 0 (.imm 0x100)).wf = false := by decide
theorem test_wf_refuses_odd_ldtwa : (Instr.ldtwa 31 0 (.imm 0)).wf = false := by decide
theorem test_wf_refuses_odd_sttw : (Instr.sttw 1 0 (.imm 0x100)).wf = false := by decide
theorem test_wf_refuses_odd_sttwa : (Instr.sttwa 1 0 (.reg 0x80 2)).wf = false := by decide
theorem test_wf_accepts_even_pairs :
    (Instr.ldtw 0 1 (.imm 1)).wf = true ∧ (Instr.sttwa 30 1 (.reg 0 1)).wf = true ∧ (Instr.jmpl 3 1 (.imm 1)).wf = true := by
  decide

/-! ## Decoding (R52 to R55): words written out from the spec's fields -/

/-- V65 and V51: `op = 01`, `disp30`. -/
theorem test_decode_call :
    decodeWord 0x40000040 = .ok (.call 0x40) ∧ decodeWord 0x7FFFFFFF = .ok (.call (-1)) := ⟨rfl, rfl⟩

/-- V53, V56: `10 rd 111000 rs1 i ...`. -/
theorem test_decode_jmpl :
    decodeWord 0x81C7E008 = .ok (.jmpl 0 31 (.imm 8)) ∧ decodeWord 0x9FC04000 = .ok (.jmpl 15 1 (.reg 0)) := ⟨rfl, rfl⟩

/-- V60 and V24's word: `10 rd 111100 rs1 i ...`. -/
theorem test_decode_save :
    decodeWord 0x9DE3BFA0 = .ok (.save 14 14 (.imm (-96))) ∧ decodeWord 0x81E00000 = .ok (.save 0 0 (.reg 0)) := ⟨rfl, rfl⟩

/-- V61, V27: `10 rd 111101 rs1 i ...`. -/
theorem test_decode_restore :
    decodeWord 0x81E80000 = .ok (.restore 0 0 (.reg 0)) ∧ decodeWord 0x93EC0000 = .ok (.restore 9 16 (.reg 0)) := ⟨rfl, rfl⟩

/-- V32, V41: `11 rd 000011 rs1 i ...`. -/
theorem test_decode_ldtw :
    decodeWord 0xC4182100 = .ok (.ldtw 2 0 (.imm 0x100)) ∧ decodeWord 0xC4188000 = .ok (.ldtw 2 2 (.reg 0)) := ⟨rfl, rfl⟩

/-- V63, V42: `11 rd 010011 rs1 i ...`, with `imm_asi` at 12:5 when `i = 0`. -/
theorem test_decode_ldtwa :
    decodeWord 0xD49A1000 = .ok (.ldtwa 10 8 (.reg 0x80 0)) ∧ decodeWord 0xC4982000 = .ok (.ldtwa 2 0 (.imm 0)) := ⟨rfl, rfl⟩

/-- V38, V31: `11 rd 000111 rs1 i ...`. -/
theorem test_decode_sttw :
    decodeWord 0xFC3BA000 = .ok (.sttw 30 14 (.imm 0)) ∧ decodeWord 0xC0382100 = .ok (.sttw 0 0 (.imm 0x100)) := ⟨rfl, rfl⟩

/-- V44, and `11 11110 010111 01000 0 10000001 00010` written out: `rd = 30`, `rs1 = 8`, `imm_asi = 0x81`, `rs2 = 2`. -/
theorem test_decode_sttwa :
    decodeWord 0xC0B82000 = .ok (.sttwa 0 0 (.imm 0)) ∧ decodeWord 0xFCBA1022 = .ok (.sttwa 30 8 (.reg 0x81 2)) := ⟨rfl, rfl⟩

/-- V62, V64, and three bytes that are no word (R51). -/
theorem test_decode_rejects :
    decodeWord 0x81E80020 = .error .reservedBits ∧ decodeWord 0x01000000 = .error .notInScope ∧
      decodeBytes [0x81, 0xE8, 0x00] = .error .truncated := ⟨rfl, rfl, rfl⟩

/-- R42, R51: instruction bytes are in big-endian order. -/
theorem test_decode_bytes :
    decodeBytes [0x9D, 0xE3, 0xBF, 0xA0, 0x01] = .ok (.save 14 14 (.imm (-96)), [0x01]) ∧
      decodeTableWord 32 0x9DE3BFA0 = some (.save 14 14 (.imm (-96))) := ⟨rfl, rfl⟩

/-! ## Register addresses (95_test_vectors.md section 2.1) -/

/-- V3, V6: which physical register each group's first address names. -/
theorem test_addresses :
    slotOf 8 0 0 24 = .out 7 0 ∧ slotOf 8 0 0 31 = .out 7 7 ∧ slotOf 8 7 0 8 = .out 7 0 ∧ slotOf 8 7 0 16 = .loc 7 0 ∧
      slotOf 8 7 0 24 = .out 6 0 ∧ slotOf 8 0 2 7 = .global 2 6 ∧ slotOf 8 0 0 0 = .zero := by decide

/-- V8, V9: a write goes to the enabled global set only. -/
theorem test_global_sets :
    let s := writeReg { Processor.reset with gl := 1 } 5 9
    (readReg s 5, readReg { s with gl := 0 } 5, readReg { s with gl := 2 } 5) = (9, 0, 0) := by decide

/-! ## SAVE, RESTORE (section 2.2) -/

/-- V20, V24: the window moves, the sum lands in the new window, CWP wraps. -/
theorem test_save :
    nextThen (runWord (regs [(14, 0x2000)]) 0x9DE3BFA0) (fun t =>
      t.cwp == 1 && t.canSave == 3 && t.canRestore == 2 && readReg t 14 == 0x1FA0 && readReg t 30 == 0x2000 &&
        readSlot t (.out 1 6) == 0x1FA0 && t.pc == 0x1004 && t.npc == 0x1008) = true ∧
    nextThen (runWord { Processor.reset with cwp := 7 } 0x81E00000) (fun t =>
      t.cwp == 0 && t.canSave == 3 && t.canRestore == 2) = true := by decide

/-- V21, V22, V23 and R62's refusal. -/
theorem test_save_stops :
    faultsWith (runWord full 0x9DE3BFA0) (.trap .windowSpill) = true ∧
    faultsWith (runWord { Processor.reset with cleanWin := 1 } 0x9DE3BFA0) (.trap .cleanWindow) = true ∧
    faultsWith (runWord { full with cleanWin := 5 } 0x9DE3BFA0) (.trap .windowSpill) = true ∧
    refusesWith (runWord { Processor.reset with cleanWin := 0 } 0x9DE3BFA0) .inconsistentWindowState = true := by decide

/-- V27: the source is read in the window left, the sum written in the one returned to. -/
theorem test_restore :
    nextThen (runWord (writeSlot { Processor.reset with cwp := 1, canSave := 3, canRestore := 2 } (.loc 1 0) 0x7777) 0x93EC0000)
      (fun t => t.cwp == 0 && t.canSave == 4 && t.canRestore == 1 && readSlot t (.out 0 1) == 0x7777) = true := by decide

/-- V28, V29: the underflow trap, and CWP wrapping downwards. -/
theorem test_restore_wraps_and_traps :
    faultsWith (runWord bottom 0x81E80000) (.trap .windowFill) = true ∧
    nextThen (runWord (writeSlot Processor.reset (.out 7 3) 0x55) 0x81E80000) (fun t =>
      t.cwp == 7 && t.canSave == 5 && t.canRestore == 0 && readReg t 11 == 0x55) = true := by decide

/-! ## CALL, JMPL (section 2.4) -/

/-- V50, V51. -/
theorem test_call :
    nextThen (runWord (at4000 { Processor.reset with cwp := 2 }) 0x40000040) (fun t =>
      readSlot t (.out 2 7) == 0x4000 && t.pc == 0x4004 && t.npc == 0x4100 && t.cwp == 2) = true ∧
    nextThen (runWord (at4000 Processor.reset) 0x7FFFFFFF) (fun t =>
      readReg t 15 == 0x4000 && t.pc == 0x4004 && t.npc == 0x3FFC) = true := by decide

/-- V58. -/
theorem test_call_in_delay_slot :
    refusesWith (runWord { Processor.reset with pc := 0x4004, npc := 0x4100 } 0x40000040) .transferInDelaySlot = true ∧
    refusesWith (runWord { Processor.reset with pc := 0x4004, npc := 0x4100 } 0x81C3E008) .transferInDelaySlot
      = true := by decide

/-- V53, V57: the old `rs1` gives the target, then `rd` is written. -/
theorem test_jmpl :
    nextThen (runWord { regs [(31, 0x4000)] with pc := 0x4104, npc := 0x4108 } 0x81C7E008) (fun t =>
      t.pc == 0x4108 && t.npc == 0x4008) = true ∧
    nextThen (runWord { regs [(1, 0x3000)] with pc := 0x2000, npc := 0x2004 } 0x83C04000) (fun t =>
      readReg t 1 == 0x2000 && t.npc == 0x3000) = true := by decide

/-- V55, and R95: the delay-slot refusal comes before the alignment trap. -/
theorem test_jmpl_stops :
    faultsWith (runWord { regs [(1, 0x3002)] with pc := 0x2000, npc := 0x2004 } 0x9FC04000) (.trap .memAddressNotAligned) = true ∧
    refusesWith (runWord { regs [(1, 0x3002)] with pc := 0x2000, npc := 0x3000 } 0x9FC04000) .transferInDelaySlot
      = true := by
  decide

/-! ## Twin words (section 2.3) -/

/-- V33, V40, V41: the pair R[0]-R[1], zero fill, the address from the old `x[2]`. -/
theorem test_ldtw :
    nextThen (runWord (poke (regs [(1, 0xAAAAAAAABBBBBBBB)]) 0x100 [0, 0, 0, 0, 0xBB, 0xBB, 0xBB, 0xBB]) 0xC0182100) (fun t =>
      readReg t 1 == 0xBBBBBBBB && readReg t 0 == 0) = true ∧
    nextThen (runWord (poke Processor.reset 0x100 [0x80, 0, 0, 1, 0xFF, 0xFF, 0xFF, 0xFF]) 0xC4182100) (fun t =>
      readReg t 2 == 0x80000001 && readReg t 3 == 0xFFFFFFFF && t.pc == 0x1004) = true ∧
    nextThen (runWord (poke (regs [(2, 0x100)]) 0x100 [0, 0, 0, 7, 0, 0, 0, 9]) 0xC4188000) (fun t =>
      readReg t 2 == 7 && readReg t 3 == 9) = true := by decide

/-- V34, V36, V37, V47. -/
theorem test_ldtw_stops :
    faultsWith (runWord Processor.reset 0xC6182100) (.trap .illegalInstruction) = true ∧
    faultsWith (runWord Processor.reset 0xC4182104) (.trap .memAddressNotAligned) = true ∧
    faultsWith (runWord Processor.reset 0xC6182104) (.trap .illegalInstruction) = true ∧
    faultsWith (runWord (mappedBelow200 Processor.reset) 0xC4182200) (.stuck .dataUnmapped) = true := by decide

/-- V31, V38, V39, V46: the pair R[0]-R[1], the low halves only, both byte orders. -/
theorem test_sttw :
    nextThen (runWord (regs [(1, 0xAAAAAAAABBBBBBBB)]) 0xC0382100) (fun t =>
      peek t 0 0x100 8 == [0, 0, 0, 0, 0xBB, 0xBB, 0xBB, 0xBB]) = true ∧
    nextThen (runWord (regs [(30, 0x8000), (31, 0x4000), (14, 0x7FA0)]) 0xFC3BA000) (fun t =>
      peek t 0 0x7FA0 8 == [0, 0, 0x80, 0, 0, 0, 0x40, 0]) = true ∧
    nextThen (runWord (regs [(2, 0x1122334455667788), (3, 0x99AABBCCDDEEFF00)]) 0xC4382100) (fun t =>
      peek t 0 0x100 8 == [0x55, 0x66, 0x77, 0x88, 0xDD, 0xEE, 0xFF, 0]) = true ∧
    nextThen (runWord { regs [(1, 0x11223344)] with cfg := { State.resetConfig with dataBigEndian := false } } 0xC0382100)
      (fun t => peek t 0 0x100 8 == [0, 0, 0, 0, 0x44, 0x33, 0x22, 0x11]) = true := by decide

/-- V35, V48. -/
theorem test_sttw_stops :
    faultsWith (runWord Processor.reset 0xC2382100) (.trap .illegalInstruction) = true ∧
    refusesWith (runWord (textAt100 Processor.reset) 0xC4382100) .storeToProgramText = true := by decide

/-- R84: the identifier register selects a space of its own, `imm_asi` 0x80 the data space. -/
theorem test_ldtwa_supplied :
    nextThen (exec (.ldtwa 2 0 (.imm 0x100)) ⟨64, poke (supplied Processor.reset) 0x100 [0, 0, 0, 7, 0, 0, 0, 9]⟩) (fun t =>
      readReg t 2 == 0 && readReg t 3 == 0) = true ∧
    nextThen (exec (.ldtwa 2 1 (.reg 0x80 0)) ⟨64, poke (supplied (regs [(1, 0x100)])) 0x100 [0, 0, 0, 7, 0, 0, 0, 9]⟩) (fun t =>
      readReg t 2 == 7 && readReg t 3 == 9) = true := by decide

/-- V42, V43, and a trap of `altSpace`'s own, before the alignment check. -/
theorem test_ldtwa_stops :
    refusesWith (runWord Processor.reset 0xC4982000) .alternateSpace = true ∧
    faultsWith (runWord Processor.reset 0xC6982000) (.trap .illegalInstruction) = true ∧
    faultsWith (exec (.ldtwa 2 1 (.reg 0x82 0)) ⟨64, supplied (regs [(1, 3)])⟩) (.trap (.altSpaceDefined 9))
      = true := by decide

/-- R86, R87: the store goes to the space the identifier register selects, and leaves the data space alone. -/
theorem test_sttwa_supplied :
    nextThen (runWord (supplied (regs [(1, 0xAAAAAAAABBBBBBBB)])) 0xC0B82000) (fun t =>
      peek t 1 0 8 == [0, 0, 0, 0, 0xBB, 0xBB, 0xBB, 0xBB] && peek t 0 0 8 == [0, 0, 0, 0, 0, 0, 0, 0]) = true := by decide

/-- V44, V45. -/
theorem test_sttwa_stops :
    refusesWith (runWord Processor.reset 0xC0B82000) .alternateSpace = true ∧
    faultsWith (runWord Processor.reset 0xC2B82000) (.trap .illegalInstruction) = true := by decide

/-! ## Floating-point views (section 2.6) -/

/-- V70, V71, V73: `FD[2]` is double number 1, `FQ[4]` quad number 1. -/
theorem test_float_views :
    let s := writeDouble Processor.reset 1 0x0123456789ABCDEF
    let q := writeQuad Processor.reset 1 0x00112233445566778899AABBCCDDEEFF
    (readSingle s 2, readSingle s 3, readQuad s 0) = (0x01234567, 0x89ABCDEF, 0x0123456789ABCDEF) ∧
      [readSingle q 4, readSingle q 5, readSingle q 6, readSingle q 7] = [0x00112233, 0x44556677, 0x8899AABB, 0xCCDDEEFF] := by
  decide

/-- V72, V75. -/
theorem test_float_views_edges :
    readDouble (writeSingle Processor.reset 1 0xDEADBEEF) 0 = 0xDEADBEEF ∧
      (readQuad (writeDouble Processor.reset 31 0x1122334455667788) 15).extractLsb' 0 64 = 0x1122334455667788 := by decide

/-! ## Whole steps -/

/-- R6, R107: a step fetches at `pc`, decodes and executes; from the launch state alone there is no program text. -/
theorem test_step :
    nextThen (step ⟨64, placed 0x9DE3BFA0⟩) (fun t => t.cwp == 1 && t.pc == 0x1004) = true ∧
    refusesWith (step ⟨64, placed 0x01000000⟩) .notInScope = true ∧
    refusesWith (step ⟨64, placed 0x81E80020⟩) .reservedBits = true ∧
    faultsWith (step ⟨64, Processor.reset⟩) (.stuck .fetchOutsideText) = true := by decide

/-! ## Witnesses: the hypotheses of the statements, met together, clause by clause -/

/-- The smallest and the largest configuration (R1, R2). -/
def smallest : Processor 64 :=
  { Processor.reset with
    cfg := { State.resetConfig with nWindows := 3, maxGl := 2 }
    windows := List.replicate 3 ⟨Vector.replicate 8 0, Vector.replicate 8 0⟩
    canSave := 0, canRestore := 1, otherWin := 0, cleanWin := 2 }

def largest : Processor 64 :=
  { Processor.reset with
    cfg := { State.resetConfig with nWindows := 32, maxGl := 15 }
    globals := List.replicate 16 (Vector.replicate 7 0)
    windows := List.replicate 32 ⟨Vector.replicate 8 0, Vector.replicate 8 0⟩
    cwp := 31, gl := 15, canSave := 30, canRestore := 0, otherWin := 0, cleanWin := 31 }

theorem witness_RegisterAddressReads :
    Processor.reset.wf ∧ smallest.wf ∧ largest.wf ∧
    (1 : RegNum).toNat = (0 : Fin 7).val + 1 ∧ (7 : RegNum).toNat = (6 : Fin 7).val + 1 ∧
    (8 : RegNum).toNat = (0 : Fin 8).val + 8 ∧ (15 : RegNum).toNat = (7 : Fin 8).val + 8 ∧
    (16 : RegNum).toNat = (0 : Fin 8).val + 16 ∧ (23 : RegNum).toNat = (7 : Fin 8).val + 16 ∧
    (24 : RegNum).toNat = (0 : Fin 8).val + 24 ∧ (31 : RegNum).toNat = (7 : Fin 8).val + 24 := by decide

theorem witness_RegisterAddressWrites :
    largest.wf ∧ (1 : RegNum).toNat = (0 : Fin 7).val + 1 ∧ (7 : RegNum).toNat = (6 : Fin 7).val + 1 ∧
    (8 : RegNum).toNat = (0 : Fin 8).val + 8 ∧ (15 : RegNum).toNat = (7 : Fin 8).val + 8 ∧
    (16 : RegNum).toNat = (0 : Fin 8).val + 16 ∧ (23 : RegNum).toNat = (7 : Fin 8).val + 16 ∧
    (24 : RegNum).toNat = (0 : Fin 8).val + 24 ∧ (31 : RegNum).toNat = (7 : Fin 8).val + 24 ∧
    (1 : RegNum) ≠ 0 ∧ (31 : RegNum) ≠ 0 ∧ (0 : RegNum) ≠ 31 ∧ regSlot largest 8 ∉ [regSlot largest 24] := by decide

theorem witness_GlobalZeroReadsZero :
    (∃ t, exec (.save 0 1 (.imm 3)) ⟨64, Processor.reset⟩ = .next ⟨64, t⟩) ∧
    (∃ t, exec (.restore 0 1 (.imm 3)) ⟨64, Processor.reset⟩ = .next ⟨64, t⟩) ∧
    (∃ t, exec (.jmpl 0 1 (.imm 4)) ⟨64, Processor.reset⟩ = .next ⟨64, t⟩) ∧
    (sumOf Processor.reset 1 (.imm 7)).toNat % 8 ≠ 0 :=
  ⟨exec_exists (by decide), exec_exists (by decide), exec_exists (by decide), by decide⟩

theorem witness_AdjacentWindowsOverlap :
    Processor.reset.cwp < Processor.reset.cfg.nWindows ∧ largest.cwp < largest.cfg.nWindows ∧
    8 ≤ (8 : RegNum).toNat ∧ (15 : RegNum).toNat ≤ 15 ∧ 24 ≤ (24 : RegNum).toNat ∧ 24 ≤ (31 : RegNum).toNat := by decide

theorem witness_OutsBecomeInsOnSave :
    Processor.reset.wf ∧ (∃ t, exec (.save 14 14 (.imm (-96))) ⟨64, Processor.reset⟩ = .next ⟨64, t⟩) ∧
    8 ≤ (15 : RegNum).toNat ∧
    (15 : RegNum).toNat ≤ 15 ∧ (14 : RegNum) ≠ 15 + 16 ∧ (14 : RegNum) ≠ 8 + 16 :=
  ⟨by decide, exec_exists (by decide), by decide⟩

theorem witness_FixedUseRegisters : Processor.reset.wf ∧ (∃ t, exec (.call 0x40) ⟨64, Processor.reset⟩ = .next ⟨64, t⟩) :=
  ⟨by decide, exec_exists (by decide)⟩

theorem witness_DisabledGlobalSetsKept :
    (∃ t, exec (.ldtw 2 0 (.imm 0x100)) ⟨64, Processor.reset⟩ = .next ⟨64, t⟩) ∧ 1 ≠ Processor.reset.gl ∧
    2 ≠ Processor.reset.gl :=
  ⟨exec_exists (by decide), by decide, by decide⟩

/-- The smallest and the largest configuration, and registers on both sides of the bounds. -/
theorem witness_RegisterCount :
    smallest.wf ∧ largest.wf ∧ SlotExists largest.cfg (.global 15 6) ∧ SlotExists largest.cfg (.out 31 7) ∧
    SlotExists smallest.cfg (.loc 2 0) ∧ ¬ SlotExists smallest.cfg (.global 3 0) ∧ ¬ SlotExists smallest.cfg (.loc 3 0) ∧
    ¬ SlotExists largest.cfg .zero ∧ (31 : RegNum) ≠ 0 ∧
    smallest.cfg.nWindows * 16 + (smallest.cfg.maxGl + 1) * 8 = 72 ∧
    largest.cfg.nWindows * 16 + (largest.cfg.maxGl + 1) * 8 = 640 := by
  simp only [SlotExists]
  decide

theorem witness_WindowLayoutCoversEachWindowOnce :
    (Processor.reset.wf ∧ WindowStateConsistent Processor.reset) ∧ (smallest.wf ∧ WindowStateConsistent smallest) ∧
    (largest.wf ∧ WindowStateConsistent largest) := by decide

/-- S2: the windows of FIGURE 5-3. -/
theorem test_window_layout :
    savableWindows Processor.reset = [1, 2, 3, 4] ∧ overlapWindow Processor.reset = 5 ∧ otherWindows Processor.reset = [6] ∧
      restorableWindows Processor.reset = [7] := by decide

theorem witness_FloatFileNeitherReadNorWritten :
    (∃ t, exec (.save 14 14 (.imm (-96))) ⟨64, Processor.reset⟩ = .next ⟨64, t⟩) ∧
    exec (.ldtw 3 0 (.imm 0x100)) ⟨64, Processor.reset⟩ = .fault (.trap .illegalInstruction) ∧
    exec (.ldtwa 2 0 (.imm 0)) ⟨64, Processor.reset⟩ = .refused .alternateSpace :=
  ⟨exec_exists (by decide), rfl, rfl⟩

theorem witness_EncodeOfDecode : decodeWord 0xD49A1000 = .ok (.ldtwa 10 8 (.reg 0x80 0)) := rfl

theorem witness_DecodedWordHasRowPattern : decodeWord 0xC0382100 = .ok (.sttw 0 0 (.imm 0x100)) := rfl

theorem witness_DecodeRejectsByName :
    ((0x01000000 : Word32) &&& maskFormat1 ≠ matchCall ∧
      ∀ m ∈ [matchJmpl, matchSave, matchRestore, matchLdtw, matchLdtwa, matchSttw, matchSttwa],
        (0x01000000 : Word32) &&& maskFormat3 ≠ m) ∧
    (∀ m ∈ [matchJmpl, matchSave, matchRestore, matchLdtw, matchSttw],
      (m ||| 0x20) &&& maskFormat3 = m ∧ (m ||| 0x20).getLsbD 13 = false ∧ (m ||| 0x20).extractLsb' 5 8 ≠ 0) ∧
    (∀ m ∈ [matchJmpl, matchSave, matchRestore, matchLdtw, matchSttw],
      (m ||| 0x1000) &&& maskFormat3 = m ∧ (m ||| 0x1000).getLsbD 13 = false ∧ (m ||| 0x1000).extractLsb' 5 8 ≠ 0) := by
  simp only [List.forall_mem_cons, List.not_mem_nil, false_implies, implies_true, and_true]
  decide

theorem witness_SaveCompletes : Processor.reset.wf ∧ Processor.reset.canSave ≠ 0 ∧
    Processor.reset.canRestore < Processor.reset.cleanWin := by
  decide

theorem witness_SaveStops :
    full.canSave = 0 ∧ ({ Processor.reset with cleanWin := 1 }).canSave ≠ 0 ∧
    ({ Processor.reset with cleanWin := 1 }).cleanWin = ({ Processor.reset with cleanWin := 1 }).canRestore ∧
    ({ Processor.reset with cleanWin := 0 }).canSave ≠ 0 ∧
    ({ Processor.reset with cleanWin := 0 }).cleanWin < ({ Processor.reset with cleanWin := 0 }).canRestore := by decide

theorem witness_RestoreCompletes : Processor.reset.wf ∧ Processor.reset.canRestore ≠ 0 ∧ smallest.wf ∧
    smallest.canRestore ≠ 0 := by
  decide

theorem witness_RestoreUnderflowTraps : bottom.canRestore = 0 := rfl

/-- V30, as hypotheses; and the clause on the caller's registers at its boundary addresses. -/
theorem witness_SaveRestoreRoundTrip :
    Processor.reset.wf ∧
    (∃ t, exec (.save 14 14 (.imm (-96))) ⟨64, Processor.reset⟩ = .next ⟨64, t⟩ ∧
      (∃ u, exec (.restore 9 16 (.reg 0)) ⟨64, t⟩ = .next ⟨64, u⟩ ∧
        regSlot Processor.reset 8 ≠ regSlot t 14 ∧ regSlot Processor.reset 8 ≠ regSlot u 9 ∧
        regSlot Processor.reset 31 ≠ regSlot t 14 ∧ regSlot Processor.reset 31 ≠ regSlot u 9)) :=
  ⟨by decide, _, rfl, _, rfl, by decide⟩

theorem witness_OnlySaveAndRestoreMoveTheWindow :
    (supplied Processor.reset).wf ∧
    (∀ i ∈ [Instr.call 0x40, .jmpl 0 1 (.imm 8), .save 14 14 (.imm (-96)), .restore 0 0 (.reg 0), .ldtw 2 0 (.imm 0x100),
        .ldtwa 2 0 (.imm 0x100), .sttw 2 0 (.imm 0x100), .sttwa 2 0 (.reg 0x80 0)],
      isNext (exec i ⟨64, supplied Processor.reset⟩) = true) := by decide

theorem witness_SaveNeverEntersOverlapWindow :
    Processor.reset.wf ∧ WindowStateConsistent Processor.reset ∧
    (∃ t, exec (.save 0 0 (.reg 0)) ⟨64, Processor.reset⟩ = .next ⟨64, t⟩) ∧
    full.wf ∧ WindowStateConsistent full ∧ nextWindow full.cfg.nWindows full.cwp = overlapWindow full :=
  ⟨by decide, by decide, exec_exists (by decide), by decide⟩

theorem witness_CallCompletes : Processor.reset.wf ∧ Processor.reset.npc = Processor.reset.pc + 4 := by decide

theorem witness_JmplCompletes :
    Processor.reset.wf ∧ Processor.reset.npc = Processor.reset.pc + 4 ∧
    (readReg Processor.reset 1 + operand2Value Processor.reset (.imm 0x104)).toNat % 4 = 0 := by decide

theorem witness_JmplMisalignedTargetTraps :
    Processor.reset.npc = Processor.reset.pc + 4 ∧
    (readReg Processor.reset 1 + operand2Value Processor.reset (.imm 1)).toNat % 4 ≠ 0 ∧
    (readReg Processor.reset 1 + operand2Value Processor.reset (.imm (-1))).toNat % 4 ≠ 0 := by decide

theorem witness_TransferInDelaySlotRefused :
    ({ Processor.reset with npc := 0x1000 }).npc ≠ ({ Processor.reset with npc := 0x1000 }).pc + 4 := by decide

theorem witness_OddPairTraps : (1 : RegNum).toNat % 2 = 1 ∧ (31 : RegNum).toNat % 2 = 1 := by decide

theorem witness_LdtwCompletes :
    (regs [(1, 0x100)]).wf ∧ (30 : RegNum).toNat % 2 = 0 ∧ (0 : RegNum).toNat % 2 = 0 ∧
    (readReg (regs [(1, 0x100)]) 1 + operand2Value (regs [(1, 0x100)]) (.imm (-8))).toNat % 8 = 0 ∧
    isMapped (regs [(1, 0x100)])
      (twinKeys 0 (readReg (regs [(1, 0x100)]) 1 + operand2Value (regs [(1, 0x100)]) (.imm (-8)))) = true := by decide

/-- Both selections: the identifier register's space 1 and `imm_asi` 0x80, the data space. -/
theorem witness_LdtwaCompletes :
    (supplied Processor.reset).wf ∧ (2 : RegNum).toNat % 2 = 0 ∧
    altTargetOf (supplied Processor.reset) (asiOf (supplied Processor.reset) (.imm 0x100)) = some (.space 1) ∧
    (readReg (supplied Processor.reset) 0 + altOperandValue (supplied Processor.reset) (.imm 0x100)).toNat % 8 = 0 ∧
    isMapped (supplied Processor.reset)
      (twinKeys 1 (readReg (supplied Processor.reset) 0 + altOperandValue (supplied Processor.reset) (.imm 0x100))) = true ∧
    altTargetOf (supplied Processor.reset) (asiOf (supplied Processor.reset) (.reg 0x80 0)) = some (.space 0) ∧
    isMapped (supplied Processor.reset)
      (twinKeys 0 (readReg (supplied Processor.reset) 0 + altOperandValue (supplied Processor.reset) (.reg 0x80 0)))
        = true := by decide

theorem witness_SttwCompletes :
    (textAt100 Processor.reset).wf ∧ (30 : RegNum).toNat % 2 = 0 ∧
    (readReg (textAt100 Processor.reset) 0 + operand2Value (textAt100 Processor.reset) (.imm 0xF8)).toNat % 8 = 0 ∧
    isMapped (textAt100 Processor.reset)
      (twinKeys 0 (readReg (textAt100 Processor.reset) 0 + operand2Value (textAt100 Processor.reset) (.imm 0xF8))) = true ∧
    hitsText (textAt100 Processor.reset)
      (twinKeys 0 (readReg (textAt100 Processor.reset) 0 + operand2Value (textAt100 Processor.reset) (.imm 0xF8)))
        = false := by decide

/-- In space 1 the address of the program text is no program text. -/
theorem witness_SttwaCompletes :
    (supplied (textAt100 Processor.reset)).wf ∧ (2 : RegNum).toNat % 2 = 0 ∧
    altTargetOf (supplied (textAt100 Processor.reset)) (asiOf (supplied (textAt100 Processor.reset)) (.imm 0x100)) = some (.space 1) ∧
    (readReg (supplied (textAt100 Processor.reset)) 0 + altOperandValue (supplied (textAt100 Processor.reset)) (.imm 0x100)).toNat % 8
      = 0 ∧
    isMapped (supplied (textAt100 Processor.reset)) (twinKeys 1
      (readReg (supplied (textAt100 Processor.reset)) 0 + altOperandValue (supplied (textAt100 Processor.reset)) (.imm 0x100))) = true ∧
    hitsText (supplied (textAt100 Processor.reset)) (twinKeys 1
      (readReg (supplied (textAt100 Processor.reset)) 0 + altOperandValue (supplied (textAt100 Processor.reset)) (.imm 0x100))) = false := by
  decide

theorem witness_LoadOfPairZeroModifiesR1Only :
    (supplied Processor.reset).wf ∧ (∃ t, exec (.ldtw 0 0 (.imm 0x100)) ⟨64, supplied Processor.reset⟩ = .next ⟨64, t⟩) ∧
    altTargetOf (supplied Processor.reset) (asiOf (supplied Processor.reset) (.imm 0x100)) = some (.space 1) ∧
    (∃ t, exec (.ldtwa 0 0 (.imm 0x100)) ⟨64, supplied Processor.reset⟩ = .next ⟨64, t⟩) :=
  ⟨by decide, exec_exists (by decide), by decide, exec_exists (by decide)⟩

theorem witness_StoreOfPairZeroWritesZeroAndR1 :
    (supplied Processor.reset).wf ∧ (∃ t, exec (.sttw 0 0 (.imm 0x100)) ⟨64, supplied Processor.reset⟩ = .next ⟨64, t⟩) ∧
    altTargetOf (supplied Processor.reset) (asiOf (supplied Processor.reset) (.reg 0x80 0)) = some (.space 0) ∧
    (∃ t, exec (.sttwa 0 0 (.reg 0x80 0)) ⟨64, supplied Processor.reset⟩ = .next ⟨64, t⟩) :=
  ⟨by decide, exec_exists (by decide), by decide, exec_exists (by decide)⟩

theorem witness_MisalignedTwinWordTraps :
    (2 : RegNum).toNat % 2 = 0 ∧ (readReg Processor.reset 0 + operand2Value Processor.reset (.imm 0x104)).toNat % 8 ≠ 0 ∧
    altTargetOf (supplied Processor.reset) (asiOf (supplied Processor.reset) (.imm 1)) = some (.space 1) ∧
    (readReg (supplied Processor.reset) 0 + altOperandValue (supplied Processor.reset) (.imm 1)).toNat % 8 ≠ 0 := by decide

theorem witness_UnmappedTwinWordIsStuck :
    (2 : RegNum).toNat % 2 = 0 ∧
    (readReg (mappedBelow200 Processor.reset) 0 + operand2Value (mappedBelow200 Processor.reset) (.imm 0x200)).toNat % 8 = 0 ∧
    isMapped (mappedBelow200 Processor.reset)
      (twinKeys 0 (readReg (mappedBelow200 Processor.reset) 0 + operand2Value (mappedBelow200 Processor.reset) (.imm 0x200))) = false ∧
    altTargetOf (mappedBelow200 (supplied Processor.reset)) (asiOf (mappedBelow200 (supplied Processor.reset)) (.imm 0)) = some (.space 1) ∧
    (readReg (mappedBelow200 (supplied Processor.reset)) 0 +
      altOperandValue (mappedBelow200 (supplied Processor.reset)) (.imm 0)).toNat % 8 = 0 ∧
    isMapped (mappedBelow200 (supplied Processor.reset)) (twinKeys 1
      (readReg (mappedBelow200 (supplied Processor.reset)) 0 +
        altOperandValue (mappedBelow200 (supplied Processor.reset)) (.imm 0))) = false := by decide

theorem witness_StoreIntoProgramTextRefused :
    (2 : RegNum).toNat % 2 = 0 ∧
    (readReg (textAt100 Processor.reset) 0 + operand2Value (textAt100 Processor.reset) (.imm 0x100)).toNat % 8 = 0 ∧
    isMapped (textAt100 Processor.reset)
      (twinKeys 0 (readReg (textAt100 Processor.reset) 0 + operand2Value (textAt100 Processor.reset) (.imm 0x100))) = true ∧
    hitsText (textAt100 Processor.reset)
      (twinKeys 0 (readReg (textAt100 Processor.reset) 0 + operand2Value (textAt100 Processor.reset) (.imm 0x100))) = true ∧
    altTargetOf (supplied (textAt100 (regs [(1, 0x100)]))) (asiOf (supplied (textAt100 (regs [(1, 0x100)]))) (.reg 0x80 1))
      = some (.space 0) ∧
    (readReg (supplied (textAt100 (regs [(1, 0x100)]))) 0 +
      altOperandValue (supplied (textAt100 (regs [(1, 0x100)]))) (.reg 0x80 1)).toNat % 8 = 0 ∧
    isMapped (supplied (textAt100 (regs [(1, 0x100)]))) (twinKeys 0 (readReg (supplied (textAt100 (regs [(1, 0x100)]))) 0 +
      altOperandValue (supplied (textAt100 (regs [(1, 0x100)]))) (.reg 0x80 1))) = true ∧
    hitsText (supplied (textAt100 (regs [(1, 0x100)]))) (twinKeys 0 (readReg (supplied (textAt100 (regs [(1, 0x100)]))) 0 +
      altOperandValue (supplied (textAt100 (regs [(1, 0x100)]))) (.reg 0x80 1))) = true := by decide

/-- `altSpace` not supplied; supplied and silent on the identifiers 0x7F and 0x83; a trap of its own. -/
theorem witness_AlternateSpaceStops :
    (2 : RegNum).toNat % 2 = 0 ∧ Processor.reset.cfg.altSpace = none ∧
    (∃ table, (supplied Processor.reset).cfg.altSpace = some table ∧
      (∀ e ∈ table, e.1 ≠ asiOf (supplied Processor.reset) (.reg 0x7F 0)) ∧
      (∀ e ∈ table, e.1 ≠ asiOf (supplied Processor.reset) (.reg 0x83 0))) ∧
    altTargetOf (supplied Processor.reset) (asiOf (supplied Processor.reset) (.reg 0x82 0)) = some (.trap 9) :=
  ⟨rfl, rfl, ⟨_, rfl, by decide, by decide⟩, rfl⟩

/-- An access that wraps at the top of the address space, and one that does not meet it. -/
theorem witness_MemoryReadSeesLastWrite :
    Memory.wf [] = true ∧ 8 ≤ 2 ^ 64 ∧ [1, 2, 3, 4, 5, 6, 7, (8 : Byte)].length = 8 ∧
    (∀ k ∈ accessKeys 0 (4 : Word 64) 4, k ∉ accessKeys 0 (-4 : Word 64) 8) ∧
    (∀ k ∈ accessKeys 1 (0 : Word 64) 4, k ∉ accessKeys 0 (-4 : Word 64) 8) := by decide

/-- STTW then LDTW with `rd' = 4`; STTWA then LDTWA in space 1; STTW then LDTWA through identifier 0x80, the data space. -/
theorem witness_TwinLoadReturnsTwinStore :
    let s := supplied (regs [(2, 7), (1, 0x100)])
    s.wf ∧ (4 : RegNum) ≠ 0 ∧
    (StoresAt (.sttw 2 0 (.imm 0x100)) s 0 2 0x100 ∧ (∃ t, exec (.sttw 2 0 (.imm 0x100)) ⟨64, s⟩ = .next ⟨64, t⟩ ∧
      (LoadsAt (.ldtw 4 0 (.imm 0x100)) t 0 4 0x100 ∧ isNext (exec (.ldtw 4 0 (.imm 0x100)) ⟨64, t⟩) = true) ∧
      LoadsAt (.ldtwa 4 1 (.reg 0x80 0)) t 0 4 0x100 ∧ isNext (exec (.ldtwa 4 1 (.reg 0x80 0)) ⟨64, t⟩) = true)) ∧
    (StoresAt (.sttwa 2 0 (.imm 0x100)) s 1 2 0x100 ∧ (∃ t, exec (.sttwa 2 0 (.imm 0x100)) ⟨64, s⟩ = .next ⟨64, t⟩ ∧
      LoadsAt (.ldtwa 4 0 (.imm 0x100)) t 1 4 0x100 ∧ isNext (exec (.ldtwa 4 0 (.imm 0x100)) ⟨64, t⟩) = true)) :=
  ⟨by decide, by decide,
    ⟨.inl ⟨0, .imm 0x100, rfl, rfl, by decide⟩, _, rfl, ⟨.inl ⟨0, .imm 0x100, rfl, rfl, by decide⟩, by decide⟩,
      .inr ⟨1, .reg 0x80 0, rfl, rfl, by decide⟩, by decide⟩,
    ⟨.inr ⟨0, .imm 0x100, rfl, rfl, by decide⟩, _, rfl, .inr ⟨0, .imm 0x100, rfl, rfl, by decide⟩, by decide⟩⟩

theorem witness_StepRunsDecodedInstruction :
    let s := placed 0x9DE3BFA0
    s.pc.toNat % 4 = 0 ∧ (fetchKeys s).all (inRegions s.cfg.text) = true ∧ isMapped s (fetchKeys s) = true ∧
      decodeBytes (memRead s.mem (fetchKeys s)) = .ok (.save 14 14 (.imm (-96)), []) :=
  ⟨by decide, by decide, by decide, rfl⟩

/-- An instruction word inside the program text whose bytes are not mapped. -/
def unmappedFetch : Processor 64 :=
  { Processor.reset with
    pc := 0x104, npc := 0x108
    cfg := { State.resetConfig with text := [⟨0x100, 8⟩], mapped := [⟨0, 0x104⟩] } }

theorem witness_StepWithoutInstructionStops :
    ({ Processor.reset with pc := 0x1002 }).pc.toNat % 4 ≠ 0 ∧
    (Processor.reset.pc.toNat % 4 = 0 ∧ (fetchKeys Processor.reset).all (inRegions Processor.reset.cfg.text) = false) ∧
    (unmappedFetch.pc.toNat % 4 = 0 ∧ (fetchKeys unmappedFetch).all (inRegions unmappedFetch.cfg.text) = true ∧
      isMapped unmappedFetch (fetchKeys unmappedFetch) = false) ∧
    (fetchWord (placed 0x01000000) = .ok 0x01000000 ∧ decodeWord 0x01000000 = .error .notInScope) ∧
    (fetchWord (placed 0x81E80020) = .ok 0x81E80020 ∧ decodeWord 0x81E80020 = .error .reservedBits) :=
  ⟨by decide, by decide, by decide, ⟨rfl, rfl⟩, ⟨rfl, rfl⟩⟩

theorem witness_PlacedInstructionRuns :
    32 ≤ State.reset.rw ∧ Memory.wf State.reset.proc.mem = true ∧ State.reset.proc.pc.toNat % 4 = 0 := by decide

theorem witness_OperandFormsSignExtend : 32 ≤ 32 ∧ 32 ≤ State.reset.rw := by decide

/-- Every stop the statement lists, reached. -/
theorem witness_StopsOfEachInstruction :
    faultsWith (exec (.jmpl 0 0 (.imm 2)) ⟨64, Processor.reset⟩) (.trap .memAddressNotAligned) = true ∧
    faultsWith (exec (.save 0 0 (.imm 0)) ⟨64, full⟩) (.trap .windowSpill) = true ∧
    faultsWith (exec (.restore 0 0 (.imm 0)) ⟨64, bottom⟩) (.trap .windowFill) = true ∧
    faultsWith (exec (.ldtw 2 0 (.imm 4)) ⟨64, Processor.reset⟩) (.trap .memAddressNotAligned) = true ∧
    faultsWith (exec (.sttwa 2 0 (.reg 0x82 0)) ⟨64, supplied Processor.reset⟩) (.trap (.altSpaceDefined 9)) = true ∧
    refusesWith (exec (.call 0) ⟨64, { Processor.reset with npc := 0 }⟩) .transferInDelaySlot = true ∧
    refusesWith (exec (.save 0 0 (.imm 0)) ⟨64, { Processor.reset with cleanWin := 0 }⟩) .inconsistentWindowState = true ∧
    refusesWith (exec (.sttw 2 0 (.imm 0x100)) ⟨64, textAt100 Processor.reset⟩) .storeToProgramText = true ∧
    refusesWith (exec (.sttwa 2 0 (.imm 0)) ⟨64, Processor.reset⟩) .alternateSpace = true := by decide

/-- A well-formed, ready, aligned state with a SAVE at `pc`: it meets the premises of every `StepKeeps…` statement. -/
theorem witness_StepKeeps :
    (placed 0x9DE3BFA0).wf ∧ WindowsReady (placed 0x9DE3BFA0) ∧ PcAligned (placed 0x9DE3BFA0) ∧
    ProgramTextMapped (placed 0x9DE3BFA0).cfg ∧ (∃ t, step ⟨64, placed 0x9DE3BFA0⟩ = .next ⟨64, t⟩) ∧
    inRegions (placed 0x9DE3BFA0).cfg.text 0x1003 = true := by
  refine ⟨by decide, by decide, by decide, fun k hk => ?_, step_exists (by decide), by decide⟩
  rw [show (placed 0x9DE3BFA0).cfg.text = [⟨0x1000, 4⟩] from rfl] at hk
  rw [show (placed 0x9DE3BFA0).cfg.mapped = [⟨0, 2 ^ 64⟩] from rfl]
  simp [inRegions] at hk ⊢
  omega

/-- R100: `PcAligned` asks only for multiples of 4, so a state inside a delay instruction (V58's) is a launch state, though no
launch of a whole program. -/
theorem test_launch_in_delay_slot :
    Launch { Processor.reset with pc := 0x4004, npc := 0x4100 } ∧
      ¬ ProgramLaunch { Processor.reset with pc := 0x4004, npc := 0x4100 } :=
  ⟨⟨by decide, by decide, by decide, fun k hk => by simp [inRegions, Processor.reset, State.resetConfig] at hk⟩,
    fun h => absurd h.2 (by decide)⟩

/-- R4, R53: at `RW = 32` a state is well-formed and a sum is taken modulo `2^32`; 31 bits are too few. -/
def narrow (rw : Nat) : Processor rw :=
  { cfg := { State.resetConfig with mapped := [⟨0, 2 ^ rw⟩] }
    globals := List.replicate 3 (Vector.replicate 7 0)
    windows := List.replicate 8 ⟨Vector.replicate 8 0, Vector.replicate 8 0⟩
    cwp := 0, gl := 0, canSave := 4, canRestore := 1, otherWin := 1, cleanWin := 7
    fw := Vector.replicate 64 0
    pc := 0x1000, npc := 0x1004, asi := 0, mem := [], draws := 0 }

theorem test_register_width :
    (narrow 32).wf ∧ ¬ (narrow 31).wf ∧
    nextThen (exec (.save 14 14 (.imm (-96))) ⟨32, writeReg (narrow 32) 14 0x40⟩) (fun t =>
      (readReg t 14).toNat == 0xFFFFFFE0 && (readReg t 30).toNat == 0x40) = true := by decide

/-- Each clause: a run already at its end, one that completes in a step, one that faults, one that is refused. -/
theorem witness_RunCompletesOnlyAtEndPc :
    (State.reset.proc.pc.toNat = 0x1000 ∧ State.reset.proc.npc = State.reset.proc.pc + 4) ∧
    (∃ t, runTo 0x1004 1 ⟨64, placed 0x9DE3BFA0⟩ = .completed t) ∧
    (¬ (State.reset.proc.pc.toNat = 0x1004 ∧ State.reset.proc.npc = State.reset.proc.pc + 4) ∧
      faultsWith (step State.reset) (.stuck .fetchOutsideText) = true) ∧
    refusesWith (step ⟨64, placed 0x01000000⟩) .notInScope = true :=
  ⟨by decide, ⟨_, rfl⟩, by decide, by decide⟩

theorem witness_StackViewReadsAndWrites :
    Processor.reset.wf ∧ Processor.reset.canRestore + 2 ≤ Processor.reset.cfg.nWindows ∧ smallest.wf ∧
      smallest.canRestore + 2 ≤ smallest.cfg.nWindows := by decide

theorem witness_SavePushesAFrame :
    Processor.reset.wf ∧ WindowStateConsistent Processor.reset ∧
    (∃ t, exec (.save 31 31 (.imm 1)) ⟨64, Processor.reset⟩ = .next ⟨64, t⟩) :=
  ⟨by decide, by decide, exec_exists (by decide)⟩

theorem witness_RestorePopsAFrame :
    Processor.reset.wf ∧ WindowStateConsistent Processor.reset ∧
    (∃ t, exec (.restore 9 16 (.reg 0)) ⟨64, Processor.reset⟩ = .next ⟨64, t⟩) ∧
    bottom.wf ∧ WindowStateConsistent bottom ∧ exec (.restore 9 16 (.reg 0)) ⟨64, bottom⟩ = .fault (.trap .windowFill) :=
  ⟨by decide, by decide, exec_exists (by decide), by decide, by decide, rfl⟩

end Sys2Proof.Machine.Tests
end

section
/-! PROOFS. O8: the R registers, counted on the storage (R3, R12). -/

namespace Sys2Proof.Machine

variable {rw : Nat}

/-! ## The list of the registers with storage -/

/-- The seven registers of a global set that have storage (R11, R12). -/
def globalSlots (g : Nat) : List Slot := (List.finRange 7).map (Slot.global g)

/-- Every register the configuration has: the global sets, then the windows. -/
def storedSlots (c : Config) : List Slot :=
  (List.range (c.maxGl + 1)).flatMap globalSlots ++ (List.range c.nWindows).flatMap windowSlots

theorem mem_globalSlots {g : Nat} {sl : Slot} : sl ∈ globalSlots g ↔ ∃ k, sl = .global g k := by
  simp [globalSlots, eq_comm]

@[simp] theorem globalSlots_length (g : Nat) : (globalSlots g).length = 7 := by simp [globalSlots]

@[simp] theorem windowSlots_length (w : Nat) : (windowSlots w).length = 16 := by simp [windowSlots]

theorem globalSlots_nodup (g : Nat) : (globalSlots g).Nodup :=
  (List.nodup_finRange 7).map fun _ _ h => (Slot.global.inj h).2

theorem windowSlots_nodup (w : Nat) : (windowSlots w).Nodup := by
  refine List.Nodup.append ?_ ?_ ?_
  · exact (List.nodup_finRange 8).map fun _ _ h => (Slot.loc.inj h).2
  · exact (List.nodup_finRange 8).map fun _ _ h => (Slot.out.inj h).2
  · simp [List.Disjoint]

/-- Two global sets share no register. -/
theorem globalSlots_disjoint {g g' : Nat} (h : g ≠ g') : (globalSlots g).Disjoint (globalSlots g') := by
  intro sl hl hr
  obtain ⟨k, rfl⟩ := mem_globalSlots.1 hl
  obtain ⟨k', e⟩ := mem_globalSlots.1 hr
  exact h (Slot.global.inj e).1

/-- Two windows share none of their 16 registers: an overlap is two addresses of one register (R18), not two registers. -/
theorem windowSlots_disjoint {w w' : Nat} (h : w ≠ w') : (windowSlots w).Disjoint (windowSlots w') := by
  intro sl hl hr
  rcases mem_windowSlots.1 hl with ⟨k, rfl⟩ | ⟨k, rfl⟩ <;> simp [mem_windowSlots, h] at hr

/-- Lists without repeats, pairwise disjoint, laid end to end have no repeats. -/
theorem nodup_flatMap_range {f : Nat → List Slot} (n : Nat) (hf : ∀ i, (f i).Nodup)
    (hd : ∀ {i j}, i ≠ j → (f i).Disjoint (f j)) : ((List.range n).flatMap f).Nodup :=
  List.nodup_flatMap.2 ⟨fun i _ => hf i, List.nodup_range.imp fun h => hd h⟩

theorem mem_storedSlots {c : Config} {sl : Slot} : sl ∈ storedSlots c ↔ SlotExists c sl := by
  cases sl <;> simp [storedSlots, mem_globalSlots, mem_windowSlots, SlotExists]

theorem storedSlots_nodup (c : Config) : (storedSlots c).Nodup := by
  refine (nodup_flatMap_range _ globalSlots_nodup globalSlots_disjoint).append
    (nodup_flatMap_range _ windowSlots_nodup windowSlots_disjoint) ?_
  intro sl hg hw
  obtain ⟨g, -, hg⟩ := List.mem_flatMap.1 hg
  obtain ⟨w, -, hw⟩ := List.mem_flatMap.1 hw
  obtain ⟨k, rfl⟩ := mem_globalSlots.1 hg
  simp [mem_windowSlots] at hw

theorem storedSlots_length (c : Config) : (storedSlots c).length = (c.maxGl + 1) * 7 + c.nWindows * 16 := by
  simp [storedSlots, List.length_flatMap]

/-! ## The addresses of a stored register -/

/-- Each number from 1 to 31 is an address other than 0 (R10). -/
theorem exists_regNum_toNat_eq {m : Nat} (h0 : 0 < m) (h : m < 32) : ∃ i : RegNum, i ≠ 0 ∧ i.toNat = m := by
  have hm : (BitVec.ofNat 5 m).toNat = m := (BitVec.toNat_ofNat ..).trans (Nat.mod_eq_of_lt h)
  refine ⟨.ofNat 5 m, fun e => ?_, hm⟩
  rw [e] at hm
  exact h0.ne hm

/-- Every register the configuration has is named by an address other than 0, in the register's own window or global set. -/
theorem exists_slotOf_eq {c : Config} {sl : Slot} (hn : 0 < c.nWindows) (h : SlotExists c sl) :
    ∃ (cwp gl : Nat) (i : RegNum), cwp < c.nWindows ∧ gl ≤ c.maxGl ∧ i ≠ 0 ∧ slotOf c.nWindows cwp gl i = sl := by
  cases sl with
  | zero => exact h.elim
  | global g k =>
    obtain ⟨i, hi, e⟩ := exists_regNum_toNat_eq (m := k + 1) (by omega) (by omega)
    exact ⟨0, g, i, hn, h, hi, slotOf_global k e⟩
  | out w k =>
    obtain ⟨i, hi, e⟩ := exists_regNum_toNat_eq (m := k + 8) (by omega) (by omega)
    exact ⟨w, 0, i, h, Nat.zero_le _, hi, slotOf_out k e⟩
  | loc w k =>
    obtain ⟨i, hi, e⟩ := exists_regNum_toNat_eq (m := k + 16) (by omega) (by omega)
    exact ⟨w, 0, i, h, Nat.zero_le _, hi, slotOf_loc k e⟩

/-- The registers the configuration has are those the addresses other than 0 name, over its windows and global sets. -/
theorem slotExists_iff_slotOf {c : Config} (hn : 0 < c.nWindows) (sl : Slot) :
    SlotExists c sl ↔
      ∃ (cwp gl : Nat) (i : RegNum), cwp < c.nWindows ∧ gl ≤ c.maxGl ∧ i ≠ 0 ∧ slotOf c.nWindows cwp gl i = sl := by
  refine ⟨exists_slotOf_eq hn, ?_⟩
  rintro ⟨cwp, gl, i, hc, hg, hi, rfl⟩
  exact slotExists_slotOf hi hc hg

/-! ## No storage beside them -/

/-- A write to a register the configuration does not have changes nothing. -/
theorem writeSlot_of_not_slotExists {s : Processor rw} {sl : Slot} (v : Word rw)
    (hg : s.globals.length = s.cfg.maxGl + 1) (hw : s.windows.length = s.cfg.nWindows) (h : ¬ SlotExists s.cfg sl) :
    writeSlot s sl v = s := by
  cases sl with
  | zero => rfl
  | global g k =>
    have : s.globals.length ≤ g := by simp only [SlotExists] at h; omega
    simp [writeSlot, List.modify_eq_self this]
  | out w k =>
    have : s.windows.length ≤ w := by simp only [SlotExists] at h; omega
    simp [writeSlot, List.modify_eq_self this]
  | loc w k =>
    have : s.windows.length ≤ w := by simp only [SlotExists] at h; omega
    simp [writeSlot, List.modify_eq_self this]

/-- A write changes no physical register but the one it names. -/
theorem regsSameBut_writeSlot (s : Processor rw) (sl : Slot) (v : Word rw) : RegsSameBut s (writeSlot s sl v) [sl] :=
  fun _ h => readSlot_writeSlot_other s v (List.ne_of_not_mem_cons h)

/-- Settles O8: `storedSlots` is the list, and the bounds on `N_REG_WINDOWS` and `MAXGL` give 72 and 640. -/
theorem registerCount : Obligations.RegisterCount := by
  intro rw s hs
  obtain ⟨⟨-, hn, hn', hm, hm'⟩, hg, hw, -, -, -⟩ := hs
  have hlen := storedSlots_length s.cfg
  refine ⟨⟨storedSlots s.cfg, storedSlots_nodup _, fun _ => mem_storedSlots, by omega, by omega, by omega⟩,
    slotExists_iff_slotOf (by omega), ?_, ?_⟩
  · exact fun sl v h => ⟨readSlot_writeSlot_same v hg hw h, regsSameBut_writeSlot s sl v⟩
  · exact fun sl v h => writeSlot_of_not_slotExists v hg hw h

end Sys2Proof.Machine
end

section
/-! PROOFS. O1, O2, O4, O6, O24: the R register addresses, the overlap of adjacent windows, and what moves CWP (R15 to R18,
R27). -/

namespace Sys2Proof.Machine

variable {rw : Nat}

/-! ## What the addresses read (R15) -/

/-- The window a RESTORE moves back into, as R15 and R17 write it. -/
theorem prevWindow_eq_mod {n : Nat} (c : Nat) (h : 0 < n) : prevWindow n c = (c + n - 1) % n := by
  rw [prevWindow, Nat.add_sub_assoc h]

/-- A global register of a set the state stores reads what the set holds. -/
theorem stored_global_eq_readSlot {s : Processor rw} {g : Nat} (k : Fin 7) (h : g < s.globals.length) :
    (s.globals[g]?).map (fun r => r[k]) = some (readSlot s (.global g k)) := by
  simp [readSlot, h]

/-- An out register of a window the state stores reads what the window holds. -/
theorem stored_out_eq_readSlot {s : Processor rw} {w : Nat} (k : Fin 8) (h : w < s.windows.length) :
    (s.windows[w]?).map (fun r => r.outs[k]) = some (readSlot s (.out w k)) := by
  simp [readSlot, h]

/-- A local register of a window the state stores reads what the window holds. -/
theorem stored_loc_eq_readSlot {s : Processor rw} {w : Nat} (k : Fin 8) (h : w < s.windows.length) :
    (s.windows[w]?).map (fun r => r.locals[k]) = some (readSlot s (.loc w k)) := by
  simp [readSlot, h]

/-- Settles O1: each range of addresses names its registers, and a well-formed state stores them. -/
theorem registerAddressReads : Obligations.RegisterAddressReads := by
  intro rw s hs
  obtain ⟨-, hg, hw, hc, hl, -⟩ := hs
  have hn : 0 < s.cfg.nWindows := by omega
  refine ⟨readReg_zero s, fun i k h => ?_, fun i k h => ?_, fun i k h => ?_, fun i k h => ?_⟩
  · rw [readReg, regSlot, slotOf_global k h]
    exact stored_global_eq_readSlot k (by omega)
  · rw [readReg, regSlot, slotOf_out k h]
    exact stored_out_eq_readSlot k (by omega)
  · rw [readReg, regSlot, slotOf_loc k h]
    exact stored_loc_eq_readSlot k (by omega)
  · rw [readReg, regSlot, slotOf_in k h, ← prevWindow_eq_mod _ hn]
    exact stored_out_eq_readSlot k (by rw [hw]; exact prevWindow_lt _ hn)

/-! ## What a write at an address changes (R16) -/

/-- A write at an address puts the value into the stored register the address names, and changes no other. -/
theorem writeReg_changes_named_slot {s : Processor rw} (hs : s.wf) {i : RegNum} {sl : Slot} (v : Word rw)
    (hi : regSlot s i = sl) (h : SlotExists s.cfg sl) :
    readSlot (writeReg s i v) sl = v ∧ RegsSameBut s (writeReg s i v) [sl] := by
  obtain ⟨-, hg, hw, -, -, -⟩ := hs
  subst hi
  exact ⟨readSlot_writeSlot_same v hg hw h, regsSameBut_writeSlot s _ v⟩

/-- `x[i] <- v` is read at no other address: two addresses name two registers. -/
theorem readReg_writeReg_other {s : Processor rw} (hs : s.wf) {i j : RegNum} (hj : j ≠ i) (v : Word rw) :
    readReg (writeReg s i v) j = readReg s j := by
  obtain ⟨⟨-, hn, -, -, -⟩, -, -, hc, -, -⟩ := hs
  rw [readReg, regSlot_writeReg]
  exact readSlot_writeReg_other s v fun e => hj (slotOf_inj hc (by omega) e)

/-- Settles O2: each range of addresses names a register that exists, which the write changes alone. -/
theorem registerAddressWrites : Obligations.RegisterAddressWrites := by
  intro rw s i v hs
  obtain ⟨-, -, -, hc, hl, -⟩ := id hs
  have hn : 0 < s.cfg.nWindows := by omega
  rw [← prevWindow_eq_mod _ hn]
  refine ⟨writeReg_zero s v, fun k h => ?_, fun k h => ?_, fun k h => ?_, fun k h => ?_,
    fun hi => readReg_writeReg_same hs hi v, fun j hj => readReg_writeReg_other hs hj v⟩
  · exact writeReg_changes_named_slot hs v (slotOf_global k h) hl
  · exact writeReg_changes_named_slot hs v (slotOf_out k h) hc
  · exact writeReg_changes_named_slot hs v (slotOf_loc k h) hc
  · exact writeReg_changes_named_slot hs v (slotOf_in k h) (prevWindow_lt _ hn)

/-! ## The overlap of adjacent windows (R18) -/

/-- The outs of a window are the ins of the next one. -/
theorem slotOf_nextWindow_in {n c g : Nat} (hc : c < n) {i j : RegNum} (k : Fin 8) (hi : i.toNat = k.val + 8)
    (hj : j.toNat = k.val + 24) : slotOf n (nextWindow n c) g j = slotOf n c g i := by
  rw [slotOf_in k hj, slotOf_out k hi, prevWindow_nextWindow hc]

/-- The ins of a window are the outs of the one before. -/
theorem slotOf_prevWindow_out {n c g : Nat} {i j : RegNum} (k : Fin 8) (hi : i.toNat = k.val + 24)
    (hj : j.toNat = k.val + 8) : slotOf n (prevWindow n c) g j = slotOf n c g i := by
  rw [slotOf_out k hj, slotOf_in k hi]

/-- Settles O4: the two movements undo each other modulo N, and neither touches a stored register. -/
theorem adjacentWindowsOverlap : Obligations.AdjacentWindowsOverlap := by
  intro rw s i hc
  refine ⟨fun h8 h15 => ?_, fun h24 => ?_, rfl, prevWindow_lt _ (by omega), nextWindow_prevWindow hc⟩
  · have hslot : regSlot (advanceWindow s) (i + 16) = regSlot s i :=
      slotOf_nextWindow_in hc ⟨i.toNat - 8, by omega⟩ (by simp; omega) (by simp; omega)
    exact ⟨hslot, by rw [readReg, hslot, readSlot_advanceWindow, readReg]⟩
  · have hslot : regSlot (retreatWindow s) (i - 16) = regSlot s i :=
      slotOf_prevWindow_out ⟨i.toNat - 24, by omega⟩ (by simp; omega) (by simp; omega)
    exact ⟨hslot, by rw [readReg, hslot, readSlot_retreatWindow, readReg]⟩

/-! ## The registers of fixed use (R27) -/

@[simp] theorem readReg_delayedJump (s : Processor rw) (t : Word rw) (i : RegNum) :
    readReg (delayedJump s t) i = readReg s i := readSlot_delayedJump s t _

/-- Settles O6: R[15] is read back like any register, and is the top out register of its window. -/
theorem fixedUseRegisters : Obligations.FixedUseRegisters := by
  intro rw s hs
  obtain ⟨-, -, -, hc, -, -⟩ := id hs
  have hwrite (v : Word rw) : readReg (writeReg s 15 v) 15 = v := readReg_writeReg_same hs (by decide) v
  refine ⟨readReg_zero s, fun d t h => ?_, hwrite, ?_⟩
  · obtain ⟨-, rfl⟩ := execCall_next h
    rw [readReg_delayedJump, hwrite]
  · exact (slotOf_nextWindow_in hc 7 rfl rfl).symm

/-! ## What moves CWP (R17) -/

/-- Settles O24: of the next states an instruction can have, only those of SAVE and RESTORE hold a moved window. -/
theorem onlySaveAndRestoreMoveTheWindow : Obligations.OnlySaveAndRestoreMoveTheWindow := by
  intro i rw s t hs h
  obtain ⟨-, -, -, hc, -, -⟩ := hs
  have hn : 0 < s.cfg.nWindows := by omega
  rcases exec_next h with ⟨rd, target, -, rfl, hi⟩ | ⟨rd, rs1, op2, rfl, -, -, rfl⟩ | ⟨rd, rs1, op2, rfl, -, rfl⟩ |
    ⟨rd, lo, hi, hld, rfl⟩ | ⟨rd, ks, bs, hst, -, rfl⟩
  · rcases hi with ⟨d, rfl, -⟩ | ⟨rs1, op2, rfl, -⟩ <;> simp [hc]
  · simp [nextWindow, Nat.mod_lt _ hn]
  · simp [prevWindow_eq_mod _ hn, Nat.mod_lt _ hn]
  · rcases hld with ⟨rs1, op2, rfl⟩ | ⟨rs1, op2, rfl⟩ <;> simp [hc]
  · rcases hst with ⟨rs1, op2, rfl⟩ | ⟨rs1, op2, rfl⟩ <;> simp [hc]

end Sys2Proof.Machine
end

section
/-! PROOFS. O30: the illegal_instruction trap of an odd register-pair number (R80, R90). -/

namespace Sys2Proof.Machine

/-! ## The pair number is looked at first (R95) -/

theorem execLdtw_of_oddPair {rd : RegNum} (h : oddPair rd = true) (rs1 : RegNum) (op2 : Operand2) (s : State) :
    execLdtw rd rs1 op2 s = .fault (.trap .illegalInstruction) := if_pos h

theorem execLdtwa_of_oddPair {rd : RegNum} (h : oddPair rd = true) (rs1 : RegNum) (op2 : AltOperand) (s : State) :
    execLdtwa rd rs1 op2 s = .fault (.trap .illegalInstruction) := if_pos h

theorem execSttw_of_oddPair {rd : RegNum} (h : oddPair rd = true) (rs1 : RegNum) (op2 : Operand2) (s : State) :
    execSttw rd rs1 op2 s = .fault (.trap .illegalInstruction) := if_pos h

theorem execSttwa_of_oddPair {rd : RegNum} (h : oddPair rd = true) (rs1 : RegNum) (op2 : AltOperand) (s : State) :
    execSttwa rd rs1 op2 s = .fault (.trap .illegalInstruction) := if_pos h

/-- Settles O30: `oddPair` reads the number's parity, and each of the four meanings tests it before anything else. -/
theorem oddPairTraps : Obligations.OddPairTraps := by
  intro rw s rd rs1 op2 alt hrd
  have hodd : oddPair rd = true := (oddPair_iff rd).mpr hrd
  exact ⟨execLdtw_of_oddPair hodd rs1 op2 _, execLdtwa_of_oddPair hodd rs1 alt _,
    execSttw_of_oddPair hodd rs1 op2 _, execSttwa_of_oddPair hodd rs1 alt _⟩

end Sys2Proof.Machine
end

section
/-! PROOFS. O49 to O53, O60: what every step keeps (R4, R21, R34, R47, R100). Each property is kept by the instruction a step
runs, whose next states `exec_next` lists. -/

namespace Sys2Proof.Machine

variable {rw : Nat}

/-! ## A property of `exec` is one of `step` -/

/-- What holds of the next state of every instruction holds of the next state of a step. -/
theorem step_of_exec {s t : Processor rw} {P : Processor rw → Prop} (hP : ∀ i u, exec i ⟨rw, s⟩ = .next ⟨rw, u⟩ → P u)
    (h : step ⟨rw, s⟩ = .next ⟨rw, t⟩) : P t := by
  obtain ⟨_, i, -, -, hi⟩ := step_next h
  exact hP i t hi

/-! ## The state no instruction writes (R24, R33, R62, R65, R97) -/

theorem exec_keeps_fixedState {i : Instr} {s t : Processor rw} (h : exec i ⟨rw, s⟩ = .next ⟨rw, t⟩) :
    FixedStateSame s t := by
  rcases exec_next h with ⟨_, _, -, rfl, -⟩ | ⟨_, _, _, -, -, -, rfl⟩ | ⟨_, _, _, -, -, rfl⟩ | ⟨_, _, _, -, rfl⟩ |
    ⟨_, _, _, -, -, rfl⟩ <;> simp [FixedStateSame]

theorem step_keeps_fixedState {s t : Processor rw} (h : step ⟨rw, s⟩ = .next ⟨rw, t⟩) : FixedStateSame s t :=
  step_of_exec (fun _ _ => exec_keeps_fixedState) h

/-- Settles O53: every next state has the register width, and every instruction keeps the rest. -/
theorem stepKeepsFixedState : Obligations.StepKeepsFixedState := by
  intro rw s next h
  obtain ⟨t, rfl⟩ := step_keeps_rw h
  exact ⟨t, rfl, step_keeps_fixedState h⟩

/-! ## Well-formed states (R1, R2, R11, R14, R17, R24, R44) -/

theorem exec_keeps_wf {i : Instr} {s t : Processor rw} (hs : s.wf) (h : exec i ⟨rw, s⟩ = .next ⟨rw, t⟩) : t.wf := by
  rcases exec_next h with ⟨rd, target, -, rfl, -⟩ | ⟨rd, rs1, op2, -, -, -, rfl⟩ | ⟨rd, rs1, op2, -, -, rfl⟩ |
    ⟨rd, lo, hi, -, rfl⟩ | ⟨rd, ks, bs, -, -, rfl⟩
  · exact wf_writeReg hs rd s.pc
  · exact wf_writeReg (wf_advanceWindow hs) rd _
  · exact wf_writeReg (wf_havocWindow_retreatWindow hs) rd _
  · exact wf_writeReg (wf_writeReg hs rd lo) (pairOdd rd) hi
  · obtain ⟨hparams, hglobals, hwindows, hcwp, hgl, hmem⟩ := hs
    exact ⟨hparams, hglobals, hwindows, hcwp, hgl, Memory.wf_memWrite hmem ks bs⟩

/-- Settles O49: each operation an instruction is made of keeps the state well-formed. -/
theorem stepKeepsWellFormed : Obligations.StepKeepsWellFormed :=
  fun _ _ _ hs => step_of_exec fun _ _ => exec_keeps_wf hs

/-! ## The window counters (R21, R62) -/

theorem exec_keeps_windowsReady {i : Instr} {s t : Processor rw} (hs : WindowsReady s)
    (h : exec i ⟨rw, s⟩ = .next ⟨rw, t⟩) : WindowsReady t := by
  rcases exec_next h with ⟨rd, target, -, rfl, -⟩ | ⟨rd, rs1, op2, -, hcan, hclean, rfl⟩ | ⟨rd, rs1, op2, -, hcan, rfl⟩ |
    ⟨rd, lo, hi, -, rfl⟩ | ⟨rd, ks, bs, -, -, rfl⟩
  all_goals
    unfold WindowsReady WindowStateConsistent CleanWinConsistent at hs ⊢
    simp
    omega

/-- Settles O50: SAVE and RESTORE move one window from one counter to another, inside the bounds they test. -/
theorem stepKeepsWindowsReady : Obligations.StepKeepsWindowsReady :=
  fun _ _ _ hs => step_of_exec fun _ _ => exec_keeps_windowsReady hs

/-! ## The program counters (R34) -/

/-- An address sum modulo `2^RW` keeps the remainder by 4. -/
theorem toNat_add_mod_four (h : 2 ≤ rw) (a b : Word rw) : (a + b).toNat % 4 = (a.toNat + b.toNat) % 4 := by
  rw [BitVec.toNat_add, Nat.mod_mod_of_dvd _ (show 4 ∣ 2 ^ rw from pow_dvd_pow 2 h)]

/-- The sum of two multiples of 4 is one, `RW` being at least 2. -/
theorem toNat_add_aligned (h : 2 ≤ rw) {a b : Word rw} (ha : a.toNat % 4 = 0) (hb : b.toNat % 4 = 0) :
    (a + b).toNat % 4 = 0 := by
  rw [toNat_add_mod_four h]; omega

/-- The next instruction word is aligned where this one is. -/
theorem toNat_add_four_aligned (h : 32 ≤ rw) {a : Word rw} (ha : a.toNat % 4 = 0) : (a + 4).toNat % 4 = 0 := by
  refine toNat_add_aligned (by omega) ha ?_
  rw [BitVec.ofNat_eq_ofNat, BitVec.toNat_ofNat, Nat.mod_mod_of_dvd _ (show 4 ∣ 2 ^ rw from pow_dvd_pow 2 (by omega : 2 ≤ rw))]

/-- The byte displacement of a CALL ends in two zero bits (R53). -/
theorem callDisplacement_aligned (rw : Nat) (d : BitVec 30) : (callDisplacement rw d).toNat % 4 = 0 := by
  rw [← alignedTarget_iff, alignedTarget, beq_iff_eq]
  apply BitVec.eq_of_getLsbD_eq
  intro j hj
  rw [BitVec.getLsbD_extractLsb', callDisplacement, BitVec.getLsbD_signExtend, BitVec.getLsbD_append]
  simp [hj, show j < 32 by omega]

theorem exec_keeps_pcAligned {i : Instr} {s t : Processor rw} (hrw : 32 ≤ rw) (hs : PcAligned s)
    (h : exec i ⟨rw, s⟩ = .next ⟨rw, t⟩) : PcAligned t := by
  obtain ⟨hpc, hnpc⟩ := hs
  rcases exec_next h with ⟨rd, target, -, rfl, htarget⟩ | ⟨rd, rs1, op2, -, -, -, rfl⟩ | ⟨rd, rs1, op2, -, -, rfl⟩ |
    ⟨rd, lo, hi, -, rfl⟩ | ⟨rd, ks, bs, -, -, rfl⟩
  · refine ⟨by simpa using hnpc, ?_⟩
    rw [delayedJump_npc]
    rcases htarget with ⟨d, -, -, rfl⟩ | ⟨rs1, op2, -, -, htarget⟩
    · exact toNat_add_aligned (by omega) hpc (callDisplacement_aligned rw d)
    · exact (alignedTarget_iff target).mp htarget
  all_goals exact ⟨by simpa using hnpc, by simpa using toNat_add_four_aligned hrw hnpc⟩

/-- Settles O51: `npc + 4` and the two kinds of target are multiples of 4. -/
theorem stepKeepsPcAligned : Obligations.StepKeepsPcAligned :=
  fun _ _ _ hrw hs => step_of_exec fun _ _ => exec_keeps_pcAligned hrw hs

/-! ## The program text (R47) -/

/-- A store that the program text does not refuse leaves its bytes alone. -/
theorem byteAt_memWrite_of_text {s : Processor rw} {ks : List Nat} (hks : hitsText s ks = false) (bs : List Byte) {k : Nat}
    (hk : inRegions s.cfg.text k = true) : Memory.byteAt (memWrite s.mem ks bs) k = Memory.byteAt s.mem k := by
  refine Memory.byteAt_memWrite_other s.mem bs fun hmem => ?_
  exact List.any_eq_false.mp hks k hmem hk

theorem exec_keeps_programText {i : Instr} {s t : Processor rw} (h : exec i ⟨rw, s⟩ = .next ⟨rw, t⟩) {k : Nat}
    (hk : inRegions s.cfg.text k = true) : Memory.byteAt t.mem k = Memory.byteAt s.mem k := by
  rcases exec_next h with ⟨rd, target, -, rfl, -⟩ | ⟨rd, rs1, op2, -, -, -, rfl⟩ | ⟨rd, rs1, op2, -, -, rfl⟩ |
    ⟨rd, lo, hi, -, rfl⟩ | ⟨rd, ks, bs, -, htext, rfl⟩
  · simp
  · simp
  · simp
  · simp
  · exact byteAt_memWrite_of_text htext bs hk

/-- Settles O52: only a store writes memory, and one into the program text is refused. -/
theorem stepKeepsProgramText : Obligations.StepKeepsProgramText := by
  intro rw s t h
  obtain ⟨hcfg, -⟩ := step_keeps_fixedState h
  exact ⟨congrArg Config.text hcfg, fun k hk => step_of_exec (fun _ _ hi => exec_keeps_programText hi hk) h⟩

/-! ## The launch premises (R100) -/

theorem step_keeps_launch {s t : Processor rw} (hs : Launch s) (h : step ⟨rw, s⟩ = .next ⟨rw, t⟩) : Launch t := by
  obtain ⟨hwf, hready, hpc, htext⟩ := hs
  obtain ⟨⟨hrw, -⟩, -⟩ := id hwf
  obtain ⟨hcfg, -⟩ := step_keeps_fixedState h
  exact ⟨stepKeepsWellFormed rw s t hwf h, stepKeepsWindowsReady rw s t hready h, stepKeepsPcAligned rw s t hrw hpc h,
    hcfg ▸ htext⟩

/-- Settles O60: the premises are those of O49, O50 and O51, and one on the configuration, which no step changes. -/
theorem stepKeepsLaunch : Obligations.StepKeepsLaunch := by
  intro rw s next hs h
  obtain ⟨t, rfl⟩ := step_keeps_rw h
  exact ⟨t, rfl, step_keeps_launch hs h⟩

end Sys2Proof.Machine
end

section
/-! PROOFS. O14 to O18: the encoder and the decoder undo each other, and the decoder refuses by name (R51 to R55). -/

namespace Sys2Proof

/-! ## The fields of a format 3 word (R52) -/

section Format3
variable (op : BitVec 2) (rd : RegNum) (op3 : BitVec 6) (rs1 : RegNum) (low14 : BitVec 14)

theorem fieldRd_format3 : fieldRd (format3 op rd op3 rs1 low14) = rd := by
  apply BitVec.eq_of_getLsbD_eq
  intro j hj
  rw [fieldRd, BitVec.getLsbD_extractLsb', Laws.Encoding.format3_getLsbD]
  interval_cases j <;> simp

theorem fieldRs1_format3 : fieldRs1 (format3 op rd op3 rs1 low14) = rs1 := by
  apply BitVec.eq_of_getLsbD_eq
  intro j hj
  rw [fieldRs1, BitVec.getLsbD_extractLsb', Laws.Encoding.format3_getLsbD]
  interval_cases j <;> simp

/-- Bits 13:0, where the second operand stands. -/
theorem low14_format3 : (format3 op rd op3 rs1 low14).extractLsb' 0 14 = low14 := by
  apply BitVec.eq_of_getLsbD_eq
  intro j hj
  rw [BitVec.getLsbD_extractLsb', Laws.Encoding.format3_getLsbD]
  simp [hj]

end Format3

/-- A format 3 word is its row's pattern, `rd`, `rs1` and bits 13:0: nothing is left of it. -/
theorem eq_of_format3_fields {w w' : Word32} (hrow : w &&& maskFormat3 = w' &&& maskFormat3) (hrd : fieldRd w = fieldRd w')
    (hrs1 : fieldRs1 w = fieldRs1 w') (hlow : w.extractLsb' 0 14 = w'.extractLsb' 0 14) : w = w' := by
  apply BitVec.eq_of_getLsbD_eq
  intro j hj
  have row := congrArg (BitVec.getLsbD · j) hrow
  have low := congrArg (BitVec.getLsbD · j) hlow
  have rs1 := congrArg (BitVec.getLsbD · (j - 14)) hrs1
  have rd := congrArg (BitVec.getLsbD · (j - 25)) hrd
  simp only [fieldRd, fieldRs1, maskFormat3, BitVec.getLsbD_and, BitVec.getLsbD_extractLsb'] at row low rs1 rd
  interval_cases j <;> simp_all

/-- Bits 13:0 with `i = 1` are an immediate. -/
theorem low14_eq_imm_iff (w : Word32) (simm13 : BitVec 13) :
    w.extractLsb' 0 14 = 1#1 ++ simm13 ↔ fieldI w = true ∧ fieldSimm13 w = simm13 := by
  constructor
  · intro h
    have bit (j : Nat) := congrArg (BitVec.getLsbD · j) h
    simp only [BitVec.getLsbD_extractLsb', BitVec.getLsbD_append] at bit
    refine ⟨by simpa [fieldI] using bit 13, BitVec.eq_of_getLsbD_eq fun j hj => ?_⟩
    simpa [fieldSimm13, hj, show j < 14 by omega] using bit j
  · rintro ⟨hi, rfl⟩
    apply BitVec.eq_of_getLsbD_eq
    intro j hj
    rw [BitVec.getLsbD_append, fieldSimm13]
    by_cases h : j < 13
    · simp [h, hj]
    · obtain rfl : j = 13 := by omega
      simpa [fieldI] using hi

/-- Bits 13:0 with `i = 0` are bits 12:5 and a register number. -/
theorem low14_eq_reg_iff (w : Word32) (immAsi : BitVec 8) (rs2 : RegNum) :
    w.extractLsb' 0 14 = 0#1 ++ immAsi ++ rs2 ↔ fieldI w = false ∧ fieldImmAsi w = immAsi ∧ fieldRs2 w = rs2 := by
  constructor
  · intro h
    have bit (j : Nat) := congrArg (BitVec.getLsbD · j) h
    simp only [BitVec.getLsbD_extractLsb', BitVec.getLsbD_append] at bit
    refine ⟨by simpa [fieldI] using bit 13, BitVec.eq_of_getLsbD_eq fun j hj => ?_, BitVec.eq_of_getLsbD_eq fun j hj => ?_⟩
    · simpa [fieldImmAsi, hj, show 5 + j < 14 by omega, show ¬ 5 + j < 5 by omega] using bit (5 + j)
    · simpa [fieldRs2, hj, show j < 14 by omega] using bit j
  · rintro ⟨hi, rfl, rfl⟩
    apply BitVec.eq_of_getLsbD_eq
    intro j hj
    rw [BitVec.getLsbD_append, BitVec.getLsbD_append, fieldImmAsi, fieldRs2]
    by_cases h5 : j < 5
    · simp [h5, hj]
    by_cases h13 : j < 13
    · simp [h5, hj, show j - 5 < 8 by omega, show 5 + (j - 5) = j by omega]
    · obtain rfl : j = 13 := by omega
      simpa [fieldI] using hi

/-! ## The second operand (R52, R55 (b), R84) -/

theorem decodeOperand2_eq_ok_iff (w : Word32) (op2 : Operand2) :
    decodeOperand2 w = .ok op2 ↔ w.extractLsb' 0 14 = encodeOperand2 op2 := by
  cases op2 with
  | reg rs2 =>
    rw [encodeOperand2, low14_eq_reg_iff, decodeOperand2]
    split_ifs with hi hz
    · simp [hi]
    · simp [hi, hz]
    · exact iff_of_false (by simp) fun h => hz h.2.1
  | imm simm13 =>
    rw [encodeOperand2, low14_eq_imm_iff, decodeOperand2]
    split_ifs with hi <;> simp [hi]

theorem decodeAltOperand_eq_iff (w : Word32) (op2 : AltOperand) :
    decodeAltOperand w = op2 ↔ w.extractLsb' 0 14 = encodeAltOperand op2 := by
  cases op2 with
  | reg immAsi rs2 =>
    rw [encodeAltOperand, low14_eq_reg_iff, decodeAltOperand]
    split_ifs with hi <;> simp [hi]
  | imm simm13 =>
    rw [encodeAltOperand, low14_eq_imm_iff, decodeAltOperand]
    split_ifs with hi <;> simp [hi]

/-- Bits 12:5 of a register operand must be zero. -/
theorem decodeOperand2_reserved {w : Word32} (hi : fieldI w = false) (hz : fieldImmAsi w ≠ 0) :
    decodeOperand2 w = .error .reservedBits := by
  rw [decodeOperand2, hi, if_neg Bool.false_ne_true, if_neg hz]

/-! ## One row at a time (R54) -/

/-- The format 1 mask looks at bits the format 3 mask looks at too. -/
theorem and_maskFormat1 (w : Word32) : w &&& maskFormat1 = w &&& maskFormat3 &&& maskFormat1 := by
  rw [BitVec.and_assoc]; rfl

section Rows
variable {w : Word32}

theorem decodeWord_call (h : w &&& maskFormat1 = matchCall) : decodeWord w = .ok (.call (fieldDisp30 w)) := by
  simp [decodeWord, hasPattern, h]

theorem decodeWord_jmpl (h : w &&& maskFormat3 = matchJmpl) : decodeWord w = decodeFormat3 .jmpl w := by
  simp only [decodeWord, hasPattern, and_maskFormat1 w, h]; rfl

theorem decodeWord_save (h : w &&& maskFormat3 = matchSave) : decodeWord w = decodeFormat3 .save w := by
  simp only [decodeWord, hasPattern, and_maskFormat1 w, h]; rfl

theorem decodeWord_restore (h : w &&& maskFormat3 = matchRestore) : decodeWord w = decodeFormat3 .restore w := by
  simp only [decodeWord, hasPattern, and_maskFormat1 w, h]; rfl

theorem decodeWord_ldtw (h : w &&& maskFormat3 = matchLdtw) : decodeWord w = decodeFormat3 .ldtw w := by
  simp only [decodeWord, hasPattern, and_maskFormat1 w, h]; rfl

theorem decodeWord_ldtwa (h : w &&& maskFormat3 = matchLdtwa) :
    decodeWord w = .ok (.ldtwa (fieldRd w) (fieldRs1 w) (decodeAltOperand w)) := by
  simp only [decodeWord, hasPattern, and_maskFormat1 w, h]; rfl

theorem decodeWord_sttw (h : w &&& maskFormat3 = matchSttw) : decodeWord w = decodeFormat3 .sttw w := by
  simp only [decodeWord, hasPattern, and_maskFormat1 w, h]; rfl

theorem decodeWord_sttwa (h : w &&& maskFormat3 = matchSttwa) :
    decodeWord w = .ok (.sttwa (fieldRd w) (fieldRs1 w) (decodeAltOperand w)) := by
  simp only [decodeWord, hasPattern, and_maskFormat1 w, h]; rfl

end Rows

/-! ## Every instruction comes back from its word (R52, R54) -/

/-- A word of a plain format 3 row gives back what it was made of. -/
theorem decodeFormat3_format3 (mk : RegNum → RegNum → Operand2 → Instr) (op : BitVec 2) (rd : RegNum) (op3 : BitVec 6)
    (rs1 : RegNum) (op2 : Operand2) :
    decodeFormat3 mk (format3 op rd op3 rs1 (encodeOperand2 op2)) = .ok (mk rd rs1 op2) := by
  rw [decodeFormat3, (decodeOperand2_eq_ok_iff _ op2).mpr (low14_format3 ..), fieldRd_format3, fieldRs1_format3]

theorem decodeAltOperand_format3 (op : BitVec 2) (rd : RegNum) (op3 : BitVec 6) (rs1 : RegNum) (op2 : AltOperand) :
    decodeAltOperand (format3 op rd op3 rs1 (encodeAltOperand op2)) = op2 :=
  (decodeAltOperand_eq_iff _ op2).mpr (low14_format3 ..)

theorem fieldDisp30_encode_call (disp30 : BitVec 30) : fieldDisp30 (encode (.call disp30)) = disp30 := by
  apply BitVec.eq_of_getLsbD_eq
  intro j hj
  rw [fieldDisp30, BitVec.getLsbD_extractLsb', encode, BitVec.getLsbD_append]
  simp [hj]

theorem encode_and_rowMask (i : Instr) : encode i &&& rowMask i = rowMatch i := by
  refine eq_of_beq (?_ : Laws.Encoding.Statement i)
  cases i with
  | call disp30 => exact Laws.Encoding.call disp30
  | jmpl rd rs1 op2 => exact Laws.Encoding.jmpl rd rs1 op2
  | save rd rs1 op2 => exact Laws.Encoding.save rd rs1 op2
  | restore rd rs1 op2 => exact Laws.Encoding.restore rd rs1 op2
  | ldtw rd rs1 op2 => exact Laws.Encoding.ldtw rd rs1 op2
  | ldtwa rd rs1 op2 => exact Laws.Encoding.ldtwa rd rs1 op2
  | sttw rd rs1 op2 => exact Laws.Encoding.sttw rd rs1 op2
  | sttwa rd rs1 op2 => exact Laws.Encoding.sttwa rd rs1 op2

theorem decodeWord_encode (i : Instr) : decodeWord (encode i) = .ok i := by
  cases i with
  | call disp30 => rw [decodeWord_call (encode_and_rowMask (.call disp30)), fieldDisp30_encode_call]
  | jmpl rd rs1 op2 =>
    rw [decodeWord_jmpl (encode_and_rowMask (.jmpl rd rs1 op2)), encode, decodeFormat3_format3]
  | save rd rs1 op2 =>
    rw [decodeWord_save (encode_and_rowMask (.save rd rs1 op2)), encode, decodeFormat3_format3]
  | restore rd rs1 op2 =>
    rw [decodeWord_restore (encode_and_rowMask (.restore rd rs1 op2)), encode, decodeFormat3_format3]
  | ldtw rd rs1 op2 =>
    rw [decodeWord_ldtw (encode_and_rowMask (.ldtw rd rs1 op2)), encode, decodeFormat3_format3]
  | ldtwa rd rs1 op2 =>
    rw [decodeWord_ldtwa (encode_and_rowMask (.ldtwa rd rs1 op2)), encode, fieldRd_format3, fieldRs1_format3,
      decodeAltOperand_format3]
  | sttw rd rs1 op2 =>
    rw [decodeWord_sttw (encode_and_rowMask (.sttw rd rs1 op2)), encode, decodeFormat3_format3]
  | sttwa rd rs1 op2 =>
    rw [decodeWord_sttwa (encode_and_rowMask (.sttwa rd rs1 op2)), encode, fieldRd_format3, fieldRs1_format3,
      decodeAltOperand_format3]

theorem decodeBytes_bigEndianBytes (w : Word32) (rest : List Byte) {i : Instr} (h : decodeWord w = .ok i) :
    decodeBytes (bigEndianBytes w ++ rest) = .ok (i, rest) := by
  simp [bigEndianBytes, decodeBytes, Machine.bigEndianWord_extract, h]

/-- Settles O14: row by row, each field of the word gives back the operand it holds. -/
theorem decodeOfEncode : Obligations.DecodeOfEncode :=
  fun i rest => ⟨decodeWord_encode i, decodeBytes_bigEndianBytes _ rest (decodeWord_encode i)⟩

/-! ## Each accepted word has one meaning (R54, R55) -/

theorem decodeFormat3_ok {mk : RegNum → RegNum → Operand2 → Instr} {w : Word32} {i : Instr}
    (h : decodeFormat3 mk w = .ok i) :
    ∃ op2, w.extractLsb' 0 14 = encodeOperand2 op2 ∧ i = mk (fieldRd w) (fieldRs1 w) op2 := by
  unfold decodeFormat3 at h
  split at h
  · rename_i op2 hop2
    exact ⟨op2, (decodeOperand2_eq_ok_iff w op2).mp hop2, (Except.ok.inj h).symm⟩
  · cases h

/-- What an accepted word is: it carries the pattern of its instruction's row, and the instruction holds its other fields. -/
theorem decodeWord_ok {w : Word32} {i : Instr} (h : decodeWord w = .ok i) :
    w &&& rowMask i = rowMatch i ∧
      (i = .call (fieldDisp30 w) ∨
        rowMask i = maskFormat3 ∧ ∃ op op3, encode i = format3 op (fieldRd w) op3 (fieldRs1 w) (w.extractLsb' 0 14)) := by
  have halt := (decodeAltOperand_eq_iff w _).mp rfl
  unfold decodeWord at h
  split_ifs at h with h1 h2 h3 h4 h5 h6 h7 h8
  · cases h
    exact ⟨eq_of_beq h1, .inl rfl⟩
  · obtain ⟨op2, hlow, rfl⟩ := decodeFormat3_ok h
    exact ⟨eq_of_beq h2, .inr ⟨rfl, _, _, congrArg (format3 _ _ _ _) hlow.symm⟩⟩
  · obtain ⟨op2, hlow, rfl⟩ := decodeFormat3_ok h
    exact ⟨eq_of_beq h3, .inr ⟨rfl, _, _, congrArg (format3 _ _ _ _) hlow.symm⟩⟩
  · obtain ⟨op2, hlow, rfl⟩ := decodeFormat3_ok h
    exact ⟨eq_of_beq h4, .inr ⟨rfl, _, _, congrArg (format3 _ _ _ _) hlow.symm⟩⟩
  · obtain ⟨op2, hlow, rfl⟩ := decodeFormat3_ok h
    exact ⟨eq_of_beq h5, .inr ⟨rfl, _, _, congrArg (format3 _ _ _ _) hlow.symm⟩⟩
  · cases h
    exact ⟨eq_of_beq h6, .inr ⟨rfl, _, _, congrArg (format3 _ _ _ _) halt.symm⟩⟩
  · obtain ⟨op2, hlow, rfl⟩ := decodeFormat3_ok h
    exact ⟨eq_of_beq h7, .inr ⟨rfl, _, _, congrArg (format3 _ _ _ _) hlow.symm⟩⟩
  · cases h
    exact ⟨eq_of_beq h8, .inr ⟨rfl, _, _, congrArg (format3 _ _ _ _) halt.symm⟩⟩

/-- Settles O16: the decoder tests the pattern of the row it answers. -/
theorem decodedWordHasRowPattern : Obligations.DecodedWordHasRowPattern := fun _ _ h => (decodeWord_ok h).1

/-- A CALL word is its two pattern bits and its displacement. -/
theorem encode_call_fieldDisp30 {w : Word32} (h : w &&& maskFormat1 = matchCall) : encode (.call (fieldDisp30 w)) = w := by
  apply BitVec.eq_of_getLsbD_eq
  intro j hj
  have row := congrArg (BitVec.getLsbD · j) h
  simp only [maskFormat1, matchCall, BitVec.getLsbD_and] at row
  rw [encode, BitVec.getLsbD_append, fieldDisp30]
  by_cases hd : j < 30
  · simp [hd]
  · interval_cases j <;> simp_all

/-- Settles O15: the pattern and the other fields of a word determine it. -/
theorem encodeOfDecode : Obligations.EncodeOfDecode := by
  intro w i h
  obtain ⟨hrow, rfl | ⟨hmask, op, op3, henc⟩⟩ := decodeWord_ok h
  · exact encode_call_fieldDisp30 hrow
  · have hrow' := encode_and_rowMask i
    rw [hmask] at hrow hrow'
    refine eq_of_format3_fields (hrow'.trans hrow.symm) ?_ ?_ ?_
    · rw [henc, fieldRd_format3]
    · rw [henc, fieldRs1_format3]
    · rw [henc, low14_format3]

/-! ## Words that are no instruction (R55) -/

theorem decodeFormat3_reserved {mk : RegNum → RegNum → Operand2 → Instr} {w : Word32} (hi : fieldI w = false)
    (hz : fieldImmAsi w ≠ 0) : decodeFormat3 mk w = .error .reservedBits := by
  rw [decodeFormat3, decodeOperand2_reserved hi hz]

/-- Settles O17: a word of no row falls through every test; a word of a plain row is left to the test of its operand. -/
theorem decodeRejectsByName : Obligations.DecodeRejectsByName := by
  intro w
  refine ⟨fun ⟨hcall, hrows⟩ => ?_, fun m hm hrow hi hz => ?_⟩
  · simp only [List.forall_mem_cons] at hrows
    simp [decodeWord, hasPattern, hcall, hrows]
  · simp only [List.mem_cons, List.not_mem_nil, or_false] at hm
    rcases hm with rfl | rfl | rfl | rfl | rfl
    · rw [decodeWord_jmpl hrow, decodeFormat3_reserved hi hz]
    · rw [decodeWord_save hrow, decodeFormat3_reserved hi hz]
    · rw [decodeWord_restore hrow, decodeFormat3_reserved hi hz]
    · rw [decodeWord_ldtw hrow, decodeFormat3_reserved hi hz]
    · rw [decodeWord_sttw hrow, decodeFormat3_reserved hi hz]

/-- Settles O18: ten closed words, each decoded by evaluation. -/
theorem knownWordsDecode : Obligations.KnownWordsDecode := ⟨rfl, rfl, rfl, rfl, rfl, rfl, rfl, rfl, rfl, rfl⟩

end Sys2Proof
end

section
/-! PROOFS. O5, O9, O19 to O23, O25: SAVE and RESTORE, their results, frames and stops, and the layout of the windows (R18,
R19, R22, R60 to R66, R105). -/

namespace Sys2Proof.Machine

variable {rw : Nat}

/-! ## Frames -/

@[simp] theorem regSlot_advancePc (s : Processor rw) (i : RegNum) : regSlot (advancePc s) i = regSlot s i := rfl

@[simp] theorem regSlot_delayedJump (s : Processor rw) (t : Word rw) (i : RegNum) :
    regSlot (delayedJump s t) i = regSlot s i := rfl

@[simp] theorem readReg_advancePc (s : Processor rw) (i : RegNum) : readReg (advancePc s) i = readReg s i :=
  readSlot_advancePc s _

theorem RegsSameBut.trans {s t u : Processor rw} {l l' : List Slot} (h : RegsSameBut s t l) (h' : RegsSameBut t u l') :
    RegsSameBut s u (l ++ l') := by
  intro sl hsl
  rw [List.mem_append, not_or] at hsl
  rw [h' sl hsl.2, h sl hsl.1]

/-- R[0] holds nothing that could change (R12). -/
theorem RegsSameBut.of_zero_cons {s t : Processor rw} {l : List Slot} (h : RegsSameBut s t (.zero :: l)) :
    RegsSameBut s t l := by
  intro sl hsl
  by_cases hz : sl = .zero
  · rw [hz, readSlot_zero, readSlot_zero]
  · exact h sl (by simp [hz, hsl])

theorem bytesSameBut_of_mem_eq {s t : Processor rw} (h : t.mem = s.mem) (ks : List Nat) : BytesSameBut s t ks :=
  fun k _ => by rw [h]

/-! ## SAVE (R60 to R62) -/

theorem exec_save_of_ready {s : Processor rw} (rd rs1 : RegNum) (op2 : Operand2) (hcan : s.canSave ≠ 0)
    (hclean : s.canRestore < s.cleanWin) : exec (.save rd rs1 op2) ⟨rw, s⟩ =
      .next ⟨rw, advancePc (writeReg (advanceWindow s) rd (sumOf s rs1 op2))⟩ := by
  rw [exec, execSave, if_neg (by simpa [windowOverflow] using hcan),
    if_neg (by simp [cleanWindowInconsistent]; omega), if_neg (by simp [cleanWindowNeeded]; omega), goOn]

/-- What a SAVE that completes does to the window state and the registers. -/
theorem exec_save_moves {s t : Processor rw} {rd rs1 : RegNum} {op2 : Operand2}
    (h : exec (.save rd rs1 op2) ⟨rw, s⟩ = .next ⟨rw, t⟩) :
    t.cwp = nextWindow s.cfg.nWindows s.cwp ∧ t.canSave + 1 = s.canSave ∧ t.canRestore = s.canRestore + 1 ∧
      RegsSameBut s t [regSlot t rd] := by
  obtain ⟨hcan, -, rfl⟩ := execSave_next h
  refine ⟨by simp, by simp; omega, by simp, fun sl hsl => ?_⟩
  rw [regSlot_advancePc, regSlot_writeReg] at hsl
  rw [readSlot_advancePc, readSlot_writeReg_other _ _ (List.ne_of_not_mem_cons hsl), readSlot_advanceWindow]

/-- Settles O19: past the three tests SAVE moves the window and writes one register. -/
theorem saveCompletes : Obligations.SaveCompletes := by
  intro rw s rd rs1 op2 hs hcan hclean
  have hexec := exec_save_of_ready rd rs1 op2 hcan hclean
  obtain ⟨hcwp, hsave, hrestore, hregs⟩ := exec_save_moves hexec
  refine ⟨_, hexec, hcwp, hsave, hrestore, fun hrd => ?_, hregs, bytesSameBut_of_mem_eq (by simp) _, by simp [PcAdvanced],
    exec_keeps_fixedState hexec, by simp⟩
  rw [readReg_advancePc, readReg_writeReg_same (wf_advanceWindow hs) hrd, sumOf]

/-- Settles O20: SAVE's three tests, in the order it makes them. -/
theorem saveStops : Obligations.SaveStops := by
  intro rw s rd rs1 op2
  refine ⟨fun hcan => ?_, fun hcan hclean => ?_, fun hcan hclean => ?_⟩
  · simp [exec, execSave, windowOverflow, hcan, raiseTrap]
  · simp [exec, execSave, windowOverflow, cleanWindowInconsistent, cleanWindowNeeded, hcan, hclean, raiseTrap]
  · simp [exec, execSave, windowOverflow, cleanWindowInconsistent, hcan, hclean]

/-- Settles O5: the overlap of O4, and `rd` names another register. -/
theorem outsBecomeInsOnSave : Obligations.OutsBecomeInsOnSave := by
  intro rw s t rd rs1 o op2 hs h h8 h15 hrd
  obtain ⟨-, -, -, hcs, -⟩ := id hs
  obtain ⟨⟨-, hn, -⟩, -, -, hc, -⟩ := exec_keeps_wf hs h
  obtain ⟨-, -, -, hregs⟩ := exec_save_moves h
  have hslot : regSlot t (o + 16) = regSlot s o := by
    obtain ⟨-, -, rfl⟩ := execSave_next h
    rw [regSlot_advancePc, regSlot_writeReg]
    exact ((adjacentWindowsOverlap rw s o hcs).1 h8 h15).1
  have hne : regSlot t (o + 16) ≠ regSlot t rd := fun e => hrd (slotOf_inj hc (by omega) e).symm
  rw [readReg, hregs _ (by simpa using hne), hslot, readReg]

/-! ## RESTORE (R63 to R65) -/

theorem exec_restore_of_ready {s : Processor rw} (rd rs1 : RegNum) (op2 : Operand2) (hcan : s.canRestore ≠ 0) :
    exec (.restore rd rs1 op2) ⟨rw, s⟩ =
      .next ⟨rw, advancePc (writeReg (havocWindow (retreatWindow s) s.cwp) rd (sumOf s rs1 op2))⟩ := by
  rw [exec, execRestore, if_neg (by simpa [windowUnderflow] using hcan), goOn]

/-- What a RESTORE that completes does to the window state and the registers. -/
theorem exec_restore_moves {s t : Processor rw} {rd rs1 : RegNum} {op2 : Operand2}
    (h : exec (.restore rd rs1 op2) ⟨rw, s⟩ = .next ⟨rw, t⟩) :
    t.cwp = prevWindow s.cfg.nWindows s.cwp ∧ t.canSave = s.canSave + 1 ∧ t.canRestore + 1 = s.canRestore ∧
      RegsSameBut s t (regSlot t rd :: windowSlots s.cwp) := by
  obtain ⟨hcan, rfl⟩ := execRestore_next h
  refine ⟨by simp, by simp, by simp; omega, fun sl hsl => ?_⟩
  rw [regSlot_advancePc, regSlot_writeReg, List.mem_cons, not_or] at hsl
  rw [readSlot_advancePc, readSlot_writeReg_other _ _ hsl.1, readSlot_havocWindow_other _ hsl.2, readSlot_retreatWindow]

theorem drawEight_getElem (n : Nat) (k : Fin 8) : (drawEight rw n)[k] = Config.freeWord rw (n + k.val) := by
  fin_cases k <;> rfl

/-- The 16 registers of a drawn window are the next 16 draws. -/
theorem readSlot_havocWindow_same {s : Processor rw} {w : Nat} (hw : w < s.windows.length) (k : Fin 8) :
    readSlot (havocWindow s w) (.loc w k) = Config.freeWord rw (s.draws + k.val) ∧
      readSlot (havocWindow s w) (.out w k) = Config.freeWord rw (s.draws + 8 + k.val) := by
  simp only [readSlot, havocWindow_windows, List.getElem?_modify_eq, List.getElem?_eq_getElem hw, Option.map_eq_map,
    Option.map_some]
  exact ⟨drawEight_getElem _ k, drawEight_getElem _ k⟩

/-- Settles O21: `rd` is a register of another window than the one drawn. -/
theorem restoreCompletes : Obligations.RestoreCompletes := by
  intro rw s rd rs1 op2 hs hcan
  obtain ⟨⟨-, hn, -⟩, -, hw, hc, -⟩ := id hs
  have hexec := exec_restore_of_ready rd rs1 op2 hcan
  obtain ⟨hcwp, hsave, hrestore, hregs⟩ := exec_restore_moves hexec
  have hrd : regSlot (havocWindow (retreatWindow s) s.cwp) rd ∉ windowSlots s.cwp := slotOf_prevWindow_not_mem hc hn rd
  refine ⟨_, hexec, ?_, hcwp ▸ prevWindow_lt s.cwp (by omega), hsave, hrestore, fun hne => ?_, fun k => ?_, ?_, by simp,
    hregs, bytesSameBut_of_mem_eq (by simp) _, by simp [PcAdvanced], exec_keeps_fixedState hexec⟩
  · rw [hcwp]
    exact nextWindow_prevWindow hc
  · rw [readReg_advancePc, readReg_writeReg_same (wf_havocWindow_retreatWindow hs) hne, sumOf]
  · have hloc : Slot.loc s.cwp k ∈ windowSlots s.cwp := mem_windowSlots.mpr (.inl ⟨k, rfl⟩)
    have hout : Slot.out s.cwp k ∈ windowSlots s.cwp := mem_windowSlots.mpr (.inr ⟨k, rfl⟩)
    rw [readSlot_advancePc, readSlot_advancePc, readSlot_writeReg_other _ _ (ne_of_mem_of_not_mem hloc hrd),
      readSlot_writeReg_other _ _ (ne_of_mem_of_not_mem hout hrd)]
    exact readSlot_havocWindow_same (s := retreatWindow s) (hw ▸ hc) k
  · rwa [regSlot_advancePc, regSlot_writeReg]

/-- Settles O22: the test of CANRESTORE comes first. -/
theorem restoreUnderflowTraps : Obligations.RestoreUnderflowTraps := by
  intro rw s rd rs1 op2 hcan
  simp [exec, execRestore, windowUnderflow, hcan, raiseTrap]

/-! ## A SAVE and then a RESTORE (R66) -/

/-- Settles O23: the RESTORE moves back into the caller's window, none of whose addresses names a register drawn. -/
theorem saveRestoreRoundTrip : Obligations.SaveRestoreRoundTrip := by
  intro rw s t u rd rs1 rd' rs1' op2 op2' hs ht hu
  obtain ⟨⟨-, hn, -⟩, -, -, hc, -⟩ := hs
  obtain ⟨htcwp, htsave, htrestore, htregs⟩ := exec_save_moves ht
  obtain ⟨hucwp, husave, hurestore, huregs⟩ := exec_restore_moves hu
  obtain ⟨htcfg, htgl, -⟩ := exec_keeps_fixedState ht
  obtain ⟨hucfg, hugl, -⟩ := exec_keeps_fixedState hu
  have hcwp : u.cwp = s.cwp := by rw [hucwp, htcfg, htcwp, prevWindow_nextWindow hc]
  rw [htcwp] at huregs
  have hregs := htregs.trans huregs
  refine ⟨hcwp, by omega, by omega, hregs, fun i hrd hrd' => ?_⟩
  have hslot : regSlot u i = regSlot s i := by rw [regSlot, regSlot, hcwp, hucfg, htcfg, hugl, htgl]
  have hw : regSlot s i ∉ windowSlots (nextWindow s.cfg.nWindows s.cwp) := by
    have := slotOf_prevWindow_not_mem (g := s.gl) (nextWindow_lt s.cwp (show 0 < s.cfg.nWindows by omega)) hn i
    rwa [prevWindow_nextWindow hc] at this
  rw [readReg, hslot]
  exact hregs _ (by simp [hrd, hrd', hw])

/-! ## The layout of the windows (R19, R22, R105) -/

/-- The next window is the overlap window exactly when no window can be saved into. -/
theorem nextWindow_eq_overlapWindow_iff {s : Processor rw} (hlt : s.canSave < s.cfg.nWindows) :
    nextWindow s.cfg.nWindows s.cwp = overlapWindow s ↔ s.canSave = 0 := by
  constructor
  · intro h
    have hmod : s.cwp + 1 + 0 ≡ s.cwp + 1 + s.canSave [MOD s.cfg.nWindows] := by
      rwa [Nat.ModEq, Nat.add_right_comm s.cwp 1 s.canSave]
    have hzero := (Nat.ModEq.add_left_cancel' _ hmod).symm
    rwa [Nat.ModEq, Nat.zero_mod, Nat.mod_eq_of_lt hlt] at hzero
  · intro h
    rw [nextWindow, overlapWindow, h, Nat.add_zero]

/-- Settles O25: SAVE's first test is that of `nextWindow_eq_overlapWindow_iff`. -/
theorem saveNeverEntersOverlapWindow : Obligations.SaveNeverEntersOverlapWindow := by
  intro rw s rd rs1 op2 hs hsum
  obtain ⟨⟨-, hn, -⟩, -⟩ := hs
  have hiff := nextWindow_eq_overlapWindow_iff (s := s) (by unfold WindowStateConsistent at hsum; omega)
  refine ⟨fun t h => ?_, fun h => (saveStops rw s rd rs1 op2).1 (hiff.mp h)⟩
  obtain ⟨hcan, -, rfl⟩ := execSave_next h
  simpa [hiff] using hcan

/-- Counting up from any window modulo `N` meets all windows. -/
theorem map_add_mod_perm_range (n c : Nat) : ((List.range n).map fun i => (c + i) % n).Perm (List.range n) := by
  have : ((List.range n).map fun i => (c + i) % n) = (List.range n).rotate c := by
    apply List.ext_getElem <;> simp [List.getElem_rotate, Nat.add_comm]
  rw [this]
  exact List.rotate_perm _ _

/-- The windows around the current one, by their distance above it: each distance below `N` once. -/
theorem distances_perm_range {n a b d : Nat} (h : a + b + d + 2 = n) :
    (0 :: (List.range' 1 a ++ (a + 1) :: (List.range' (a + 2) b ++ (List.range d).map fun i => n - 1 - i))).Perm
      (List.range n) := by
  have hdown : ((List.range d).map fun i => n - 1 - i).Perm (List.range' (a + 2 + b) d) := by
    rw [show n - 1 = a + 2 + b + d - 1 by omega, ← List.reverse_range']
    exact List.reverse_perm _
  have hup := calc 0 :: (List.range' 1 a ++ (a + 1) :: (List.range' (a + 2) b ++ List.range' (a + 2 + b) d))
    _ = 0 :: (List.range' 1 a ++ List.range' (1 + a) (b + d + 1)) := by
      rw [List.range'_append_1, Nat.add_comm 1 a]; rfl
    _ = List.range' 0 (a + (b + d + 1) + 1) := by rw [List.range'_append_1]; rfl
    _ = List.range n := by rw [List.range_eq_range', ← h, ← Nat.add_assoc, ← Nat.add_assoc]
  rw [← hup]
  exact ((hdown.append_left _).cons _ |>.append_left _).cons _

/-- Settles O9: the layout is the distances of `distances_perm_range`, counted up from CWP modulo N. -/
theorem windowLayoutCoversEachWindowOnce : Obligations.WindowLayoutCoversEachWindowOnce := by
  intro rw s hs hsum
  obtain ⟨⟨-, hn, -⟩, -, -, hc, -⟩ := hs
  unfold WindowStateConsistent at hsum
  refine List.Perm.trans (.of_eq ?_) (((distances_perm_range (n := s.cfg.nWindows) (a := s.canSave) (b := s.otherWin)
    (d := s.canRestore) (by omega)).map fun i => (s.cwp + i) % s.cfg.nWindows).trans (map_add_mod_perm_range _ s.cwp))
  simp [savableWindows, overlapWindow, otherWindows, restorableWindows, List.range'_eq_map_range, Nat.mod_eq_of_lt hc,
    Nat.add_assoc, Function.comp_def]

end Sys2Proof.Machine
end

section
/-! PROOFS. O26 to O29: CALL and JMPL, their results, frames and stops (R70 to R72). -/

namespace Sys2Proof.Machine

variable {rw : Nat}

theorem inDelaySlot_eq_false_iff (s : Processor rw) : inDelaySlot s = false ↔ s.npc = s.pc + 4 := by
  simp [inDelaySlot]

theorem inDelaySlot_eq_true_iff (s : Processor rw) : inDelaySlot s = true ↔ s.npc ≠ s.pc + 4 := by
  simp [inDelaySlot]

theorem alignedTarget_eq_false_iff (a : Word rw) : alignedTarget a = false ↔ a.toNat % 4 ≠ 0 := by
  rw [← Bool.not_eq_true, alignedTarget_iff]

/-! ## The link register and the jump, which CALL and JMPL share (R70, R71, R72) -/

/-- A link into `rd` and a delayed jump change one register, `pc` and `npc`. -/
theorem link_frame (s : Processor rw) (rd : RegNum) (target : Word rw) :
    RegsSameBut s (delayedJump (writeReg s rd s.pc) target) [regSlot s rd] ∧
      BytesSameBut s (delayedJump (writeReg s rd s.pc) target) [] ∧
      WindowUnmoved s (delayedJump (writeReg s rd s.pc) target) ∧
      FixedStateSame s (delayedJump (writeReg s rd s.pc) target) ∧
      (delayedJump (writeReg s rd s.pc) target).draws = s.draws := by
  refine ⟨fun sl hsl => ?_, bytesSameBut_of_mem_eq (by simp) _, by simp [WindowUnmoved], by simp [FixedStateSame], by simp⟩
  rw [readSlot_delayedJump, readSlot_writeReg_other _ _ (List.ne_of_not_mem_cons hsl)]

theorem exec_call_of_not_delaySlot {s : Processor rw} (d : BitVec 30) (h : s.npc = s.pc + 4) :
    exec (.call d) ⟨rw, s⟩ = .next ⟨rw, delayedJump (writeReg s 15 s.pc) (callTarget s d)⟩ := by
  rw [exec, execCall, (inDelaySlot_eq_false_iff s).mpr h, if_neg Bool.false_ne_true, goOn]

/-- Settles O26: R[15] is out 7 of the window. -/
theorem callCompletes : Obligations.CallCompletes := by
  intro rw s d hs h
  have hframe := link_frame s 15 (callTarget s d)
  rw [show regSlot s 15 = .out s.cwp 7 from slotOf_out 7 rfl] at hframe
  exact ⟨_, exec_call_of_not_delaySlot d h, by rw [readReg_delayedJump, readReg_writeReg_same hs (by decide)],
    by simp, rfl, hframe⟩

theorem exec_jmpl_of_not_delaySlot {s : Processor rw} (rd rs1 : RegNum) (op2 : Operand2) (h : s.npc = s.pc + 4) :
    exec (.jmpl rd rs1 op2) ⟨rw, s⟩ =
      if alignedTarget (sumOf s rs1 op2) then .next ⟨rw, delayedJump (writeReg s rd s.pc) (sumOf s rs1 op2)⟩
      else .fault (.trap .memAddressNotAligned) := by
  rw [exec, execJmpl, (inDelaySlot_eq_false_iff s).mpr h, if_neg Bool.false_ne_true]
  cases alignedTarget (sumOf s rs1 op2) <;> rfl

/-- Settles O27: the test on the target, then the link and the jump. -/
theorem jmplCompletes : Obligations.JmplCompletes := by
  intro rw s rd rs1 op2 hs h htarget
  refine ⟨delayedJump (writeReg s rd s.pc) (sumOf s rs1 op2), ?_, fun hrd => ?_, by simp, rfl, link_frame s rd _⟩
  · rw [exec_jmpl_of_not_delaySlot rd rs1 op2 h, sumOf, (alignedTarget_iff _).mpr htarget, if_pos rfl]
  · rw [readReg_delayedJump, readReg_writeReg_same hs hrd]

/-- Settles O28: outside a delay slot the target is what JMPL tests. -/
theorem jmplMisalignedTargetTraps : Obligations.JmplMisalignedTargetTraps := by
  intro rw s rd rs1 op2 h htarget
  rw [exec_jmpl_of_not_delaySlot rd rs1 op2 h, sumOf, (alignedTarget_eq_false_iff _).mpr htarget,
    if_neg Bool.false_ne_true]

/-- Settles O29: both transfers test for the delay slot first. -/
theorem transferInDelaySlotRefused : Obligations.TransferInDelaySlotRefused := by
  intro rw s d rd rs1 op2 h
  have hslot := (inDelaySlot_eq_true_iff s).mpr h
  exact ⟨if_pos hslot, if_pos hslot⟩

end Sys2Proof.Machine
end

section
/-! PROOFS. O3, O32 to O44: memory, and the twin-word loads and stores, their results, frames and stops (R40 to R47, R80 to
R90). -/

namespace Sys2Proof.Machine

variable {rw : Nat}

/-! ## Words and their bytes (R42) -/

theorem word32_bytes32 (be : Bool) (w : Word32) : word32 be (bytes32 be w) = w := by
  cases be <;> exact bigEndianWord_extract w

theorem bytes32_word32 (be : Bool) (b0 b1 b2 b3 : Byte) : bytes32 be (word32 be [b0, b1, b2, b3]) = [b0, b1, b2, b3] := by
  cases be
  · exact congrArg List.reverse (bigEndianBytes_word b3 b2 b1 b0)
  · exact bigEndianBytes_word b0 b1 b2 b3

/-- Settles O42: little-endian is big-endian read backwards. -/
theorem byteOrderOfAWord : Obligations.ByteOrderOfAWord :=
  fun b0 b1 b2 b3 w be => ⟨rfl, rfl, rfl, rfl, word32_bytes32 be w, bytes32_word32 be b0 b1 b2 b3⟩

/-! ## Reads after a write (R44, R46) -/

/-- A write leaves what is read at other keys alone. -/
theorem memRead_memWrite_disjoint (m : Memory) {ks ks' : List Nat} (bs : List Byte) (h : ∀ k ∈ ks', k ∉ ks) :
    memRead (memWrite m ks bs) ks' = memRead m ks' :=
  List.map_congr_left fun k hk => Memory.byteAt_memWrite_other m bs (h k hk)

/-- Settles O43: an access of at most `2^RW` bytes meets no byte twice. -/
theorem memoryReadSeesLastWrite : Obligations.MemoryReadSeesLastWrite := by
  intro rw m space n space' n' a a' bs hm hn hlen
  exact ⟨memRead_memWrite hm (accessKeys_nodup space a hn) (by rw [accessKeys_length, hlen]),
    memRead_memWrite_disjoint m bs, Memory.wf_memWrite hm _ bs⟩

/-! ## The cases of a load and of a store, in the order they are tested (R81, R85, R95) -/

theorem oddPair_eq_false_iff (rd : RegNum) : oddPair rd = false ↔ rd.toNat % 2 = 0 := by
  rw [← Bool.not_eq_true, oddPair_iff]; omega

theorem alignedTwin_eq_false_iff (a : Word rw) : alignedTwin a = false ↔ a.toNat % 8 ≠ 0 := by
  rw [← Bool.not_eq_true, alignedTwin_iff]

/-- The state a load leaves: the twin word at `a` of a space in the pair `rd`. -/
def loadedTwin (s : Processor rw) (space : Nat) (rd : RegNum) (a : Word rw) : Processor rw :=
  advancePc (writeReg (writeReg s rd ((twinLow s space a).zeroExtend rw)) (pairOdd rd) ((twinHigh s space a).zeroExtend rw))

/-- The state a store leaves: the pair `rd` in the twin word at `a` of a space. -/
def storedTwin (s : Processor rw) (space : Nat) (rd : RegNum) (a : Word rw) : Processor rw :=
  advancePc { s with mem := memWrite s.mem (twinKeys space a) (twinBytes s rd) }

section Cases
variable {s : Processor rw} {space : Nat} {a : Word rw} (rd : RegNum)

theorem loadTwin_misaligned (ha : a.toNat % 8 ≠ 0) : loadTwin space rd a s = .fault (.trap .memAddressNotAligned) := by
  rw [loadTwin, (alignedTwin_eq_false_iff a).mpr ha]; rfl

theorem storeTwin_misaligned (ha : a.toNat % 8 ≠ 0) : storeTwin space rd a s = .fault (.trap .memAddressNotAligned) := by
  rw [storeTwin, (alignedTwin_eq_false_iff a).mpr ha]; rfl

theorem loadTwin_unmapped (ha : a.toNat % 8 = 0) (hm : isMapped s (twinKeys space a) = false) :
    loadTwin space rd a s = .fault (.stuck .dataUnmapped) := by
  rw [loadTwin, (alignedTwin_iff a).mpr ha, hm]; rfl

theorem storeTwin_unmapped (ha : a.toNat % 8 = 0) (hm : isMapped s (twinKeys space a) = false) :
    storeTwin space rd a s = .fault (.stuck .dataUnmapped) := by
  rw [storeTwin, (alignedTwin_iff a).mpr ha, hm]; rfl

theorem storeTwin_text (ha : a.toNat % 8 = 0) (hm : isMapped s (twinKeys space a) = true)
    (ht : hitsText s (twinKeys space a) = true) : storeTwin space rd a s = .refused .storeToProgramText := by
  rw [storeTwin, (alignedTwin_iff a).mpr ha, hm, ht]; rfl

theorem loadTwin_completes (ha : a.toNat % 8 = 0) (hm : isMapped s (twinKeys space a) = true) :
    loadTwin space rd a s = .next ⟨rw, loadedTwin s space rd a⟩ := by
  rw [loadTwin, (alignedTwin_iff a).mpr ha, hm]; rfl

theorem storeTwin_completes (ha : a.toNat % 8 = 0) (hm : isMapped s (twinKeys space a) = true)
    (ht : hitsText s (twinKeys space a) = false) : storeTwin space rd a s = .next ⟨rw, storedTwin s space rd a⟩ := by
  rw [storeTwin, (alignedTwin_iff a).mpr ha, hm, ht]; rfl

end Cases

/-! ## The four instructions with an even pair number (R81, R84, R85, R87) -/

section Even
variable {s : Processor rw} {rd : RegNum} (rs1 : RegNum)

theorem exec_ldtw_even (hrd : rd.toNat % 2 = 0) (op2 : Operand2) :
    exec (.ldtw rd rs1 op2) ⟨rw, s⟩ = loadTwin 0 rd (readReg s rs1 + operand2Value s op2) s := by
  rw [exec, execLdtw, (oddPair_eq_false_iff rd).mpr hrd]; rfl

theorem exec_sttw_even (hrd : rd.toNat % 2 = 0) (op2 : Operand2) :
    exec (.sttw rd rs1 op2) ⟨rw, s⟩ = storeTwin 0 rd (readReg s rs1 + operand2Value s op2) s := by
  rw [exec, execSttw, (oddPair_eq_false_iff rd).mpr hrd]; rfl

theorem exec_ldtwa_even (hrd : rd.toNat % 2 = 0) (op2 : AltOperand) : exec (.ldtwa rd rs1 op2) ⟨rw, s⟩ =
    inAltSpace s (asiOf s op2) fun space => loadTwin space rd (readReg s rs1 + altOperandValue s op2) s := by
  rw [exec, execLdtwa, (oddPair_eq_false_iff rd).mpr hrd]; rfl

theorem exec_sttwa_even (hrd : rd.toNat % 2 = 0) (op2 : AltOperand) : exec (.sttwa rd rs1 op2) ⟨rw, s⟩ =
    inAltSpace s (asiOf s op2) fun space => storeTwin space rd (readReg s rs1 + altOperandValue s op2) s := by
  rw [exec, execSttwa, (oddPair_eq_false_iff rd).mpr hrd]; rfl

end Even

section AltSpace
variable {s : Processor rw} {asi : BitVec 8} (k : Nat → Result)

theorem inAltSpace_space {n : Nat} (h : altTargetOf s asi = some (.space n)) : inAltSpace s asi k = k n := by
  rw [inAltSpace, h]

theorem inAltSpace_trap {id : Nat} (h : altTargetOf s asi = some (.trap id)) :
    inAltSpace s asi k = .fault (.trap (.altSpaceDefined id)) := by
  rw [inAltSpace, h]; rfl

theorem inAltSpace_unlisted (h : altTargetOf s asi = none) : inAltSpace s asi k = .refused .alternateSpace := by
  rw [inAltSpace, h]

theorem altTargetOf_not_supplied (h : s.cfg.altSpace = none) : altTargetOf s asi = none := by
  rw [altTargetOf, h]

theorem altTargetOf_not_listed {table : List (BitVec 8 × AltTarget)} (h : s.cfg.altSpace = some table)
    (hne : ∀ e ∈ table, e.1 ≠ asi) : altTargetOf s asi = none := by
  rw [altTargetOf, h]
  exact List.lookup_eq_none_iff.mpr fun e he => by simpa using (hne e he).symm

end AltSpace

/-! ## Where they stop -/

/-- Settles O38: the first test of a load and of a store. -/
theorem misalignedTwinWordTraps : Obligations.MisalignedTwinWordTraps := by
  intro rw s rd rs1 hrd
  refine ⟨fun op2 ha => ?_, fun op2 space hspace ha => ?_⟩
  · rw [exec_ldtw_even rs1 hrd, exec_sttw_even rs1 hrd]
    exact ⟨loadTwin_misaligned rd ha, storeTwin_misaligned rd ha⟩
  · rw [exec_ldtwa_even rs1 hrd, exec_sttwa_even rs1 hrd, inAltSpace_space _ hspace, inAltSpace_space _ hspace]
    exact ⟨loadTwin_misaligned rd ha, storeTwin_misaligned rd ha⟩

/-- Settles O39: the second test of a load and of a store. -/
theorem unmappedTwinWordIsStuck : Obligations.UnmappedTwinWordIsStuck := by
  intro rw s rd rs1 hrd
  refine ⟨fun op2 ha hm => ?_, fun op2 space hspace ha hm => ?_⟩
  · rw [exec_ldtw_even rs1 hrd, exec_sttw_even rs1 hrd]
    exact ⟨loadTwin_unmapped rd ha hm, storeTwin_unmapped rd ha hm⟩
  · rw [exec_ldtwa_even rs1 hrd, exec_sttwa_even rs1 hrd, inAltSpace_space _ hspace, inAltSpace_space _ hspace]
    exact ⟨loadTwin_unmapped rd ha hm, storeTwin_unmapped rd ha hm⟩

/-- Settles O40: the third test of a store. -/
theorem storeIntoProgramTextRefused : Obligations.StoreIntoProgramTextRefused := by
  intro rw s rd rs1 hrd
  refine ⟨fun op2 ha hm ht => ?_, fun op2 space hspace ha hm ht => ?_⟩
  · rw [exec_sttw_even rs1 hrd]
    exact storeTwin_text rd ha hm ht
  · rw [exec_sttwa_even rs1 hrd, inAltSpace_space _ hspace]
    exact storeTwin_text rd ha hm ht

/-- Settles O41: the space is selected before the address is looked at. -/
theorem alternateSpaceStops : Obligations.AlternateSpaceStops := by
  intro rw s rd rs1 op2 hrd
  rw [exec_ldtwa_even rs1 hrd, exec_sttwa_even rs1 hrd]
  refine ⟨fun h => ?_, fun table h hne => ?_, fun id h => ?_⟩
  · have hnone := altTargetOf_not_supplied (asi := asiOf s op2) h
    exact ⟨inAltSpace_unlisted _ hnone, inAltSpace_unlisted _ hnone⟩
  · have hnone := altTargetOf_not_listed h hne
    exact ⟨inAltSpace_unlisted _ hnone, inAltSpace_unlisted _ hnone⟩
  · exact ⟨inAltSpace_trap _ h, inAltSpace_trap _ h⟩

/-! ## What a load does (R81 to R84, R89) -/

/-- A load of an even pair leaves the two words in the pair and nothing else changed. -/
theorem loadsTwin_loadedTwin {s : Processor rw} (hs : s.wf) (space : Nat) {rd : RegNum} (hrd : rd.toNat % 2 = 0)
    (a : Word rw) : LoadsTwin s (loadedTwin s space rd a) space rd a := by
  obtain ⟨hne, hodd⟩ := pairOdd_ne ((oddPair_eq_false_iff rd).mpr hrd)
  have hlow := wf_writeReg hs rd ((twinLow s space a).zeroExtend rw)
  refine ⟨fun h0 => ?_, ?_, fun sl hsl => ?_, bytesSameBut_of_mem_eq ?_ _, ?_, ?_, ?_, ?_⟩
  · rw [loadedTwin, readReg_advancePc, readReg_writeReg_other hlow hne.symm, readReg_writeReg_same hs h0, twinLow_eq]
  · rw [loadedTwin, readReg_advancePc, ← pairOdd, readReg_writeReg_same hlow hodd, twinHigh_eq]
  · simp only [List.mem_cons, List.not_mem_nil, or_false, not_or] at hsl
    rw [loadedTwin, readSlot_advancePc, readSlot_writeReg_other _ _ (by rw [regSlot_writeReg]; exact hsl.2),
      readSlot_writeReg_other _ _ hsl.1]
  · simp [loadedTwin]
  · simp [loadedTwin, PcAdvanced]
  · simp [loadedTwin, WindowUnmoved]
  · simp [loadedTwin, FixedStateSame]
  · simp [loadedTwin]

/-- Settles O32: past the two tests a load completes. -/
theorem ldtwCompletes : Obligations.LdtwCompletes := by
  intro rw s rd rs1 op2 hs hrd ha hm
  exact ⟨_, (exec_ldtw_even rs1 hrd op2).trans (loadTwin_completes rd ha hm), loadsTwin_loadedTwin hs 0 hrd _⟩

/-- Settles O33: as O32, in the space selected. -/
theorem ldtwaCompletes : Obligations.LdtwaCompletes := by
  intro rw s rd rs1 op2 space hs hrd hspace ha hm
  exact ⟨_, (exec_ldtwa_even rs1 hrd op2).trans ((inAltSpace_space _ hspace).trans (loadTwin_completes rd ha hm)),
    loadsTwin_loadedTwin hs space hrd _⟩

/-- Every load that completes loads the twin word at its address. -/
theorem loadsTwin_of_exec {s t : Processor rw} (hs : s.wf) {i : Instr} {space : Nat} {rd : RegNum} {a : Word rw}
    (hi : LoadsAt i s space rd a) (h : exec i ⟨rw, s⟩ = .next ⟨rw, t⟩) : LoadsTwin s t space rd a := by
  rcases hi with ⟨rs1, op2, rfl, rfl, rfl⟩ | ⟨rs1, op2, rfl, hspace, rfl⟩
  · obtain ⟨hrd, h⟩ := execLdtw_next h
    obtain ⟨-, -, rfl⟩ := loadTwin_next h
    exact loadsTwin_loadedTwin hs 0 ((oddPair_eq_false_iff rd).mp hrd) _
  · obtain ⟨hrd, n, hn, h⟩ := execLdtwa_next h
    obtain rfl : n = space := AltTarget.space.inj (Option.some.inj (hn.symm.trans hspace))
    obtain ⟨-, -, rfl⟩ := loadTwin_next h
    exact loadsTwin_loadedTwin hs n ((oddPair_eq_false_iff rd).mp hrd) _

/-- A load of the pair R[0]-R[1] changes R[1] only. -/
theorem LoadsTwin.pair_zero {s t : Processor rw} {space : Nat} {a : Word rw} (h : LoadsTwin s t space 0 a) :
    RegsSameBut s t [.global s.gl 0] ∧ readReg t 1 = (wordAt s space (a + 4)).zeroExtend rw := by
  obtain ⟨-, hodd, hregs, -⟩ := h
  exact ⟨RegsSameBut.of_zero_cons hregs, hodd⟩

/-- Settles O36: what is left of the frame of a load when R[0] holds nothing. -/
theorem loadOfPairZeroModifiesR1Only : Obligations.LoadOfPairZeroModifiesR1Only := by
  intro rw s t rs1 hs
  exact ⟨fun op2 h => (loadsTwin_of_exec hs (.inl ⟨rs1, op2, rfl, rfl, rfl⟩) h).pair_zero,
    fun op2 space hspace h => (loadsTwin_of_exec hs (.inr ⟨rs1, op2, rfl, hspace, rfl⟩) h).pair_zero⟩

/-! ## What a store does (R82, R85 to R87) -/

/-- The eight bytes of a twin word are read back where they were written. -/
theorem memRead_storedTwin {s : Processor rw} (hs : s.wf) (space : Nat) (rd : RegNum) (a : Word rw) :
    memRead (storedTwin s space rd a).mem (twinKeys space a) = twinBytes s rd := by
  obtain ⟨⟨hrw, -⟩, -, -, -, -, hmem⟩ := hs
  have hsize : 8 ≤ 2 ^ rw := (show 8 ≤ 2 ^ 32 by decide).trans (Nat.pow_le_pow_right (by decide) hrw)
  exact memRead_memWrite hmem (accessKeys_nodup space a hsize) (by simp [twinBytes])

/-- A store leaves the low 32 bits of the pair in the two words and nothing else changed. -/
theorem storesTwin_storedTwin {s : Processor rw} (hs : s.wf) (space : Nat) (rd : RegNum) (a : Word rw) :
    StoresTwin s (storedTwin s space rd a) space rd a := by
  have hread := memRead_storedTwin hs space rd a
  refine ⟨?_, ?_, fun k hk => Memory.byteAt_memWrite_other s.mem _ hk, fun sl _ => ?_, ⟨rfl, rfl⟩, ⟨rfl, rfl, rfl⟩,
    ⟨rfl, rfl, rfl, rfl, rfl, rfl⟩, rfl⟩
  · rw [← twinLow_eq, twinLow, hread, twinBytes, List.take_left' (bytes32_length ..)]
    exact word32_bytes32 _ _
  · rw [← twinHigh_eq, twinHigh, hread, twinBytes, List.drop_left' (bytes32_length ..)]
    exact word32_bytes32 _ _
  · rw [storedTwin, readSlot_advancePc, readSlot_memory]

/-- Settles O34: past the three tests a store completes. -/
theorem sttwCompletes : Obligations.SttwCompletes := by
  intro rw s rd rs1 op2 hs hrd ha hm ht
  exact ⟨_, (exec_sttw_even rs1 hrd op2).trans (storeTwin_completes rd ha hm ht), storesTwin_storedTwin hs 0 rd _⟩

/-- Settles O35: as O34, in the space selected. -/
theorem sttwaCompletes : Obligations.SttwaCompletes := by
  intro rw s rd rs1 op2 space hs hrd hspace ha hm ht
  exact ⟨_, (exec_sttwa_even rs1 hrd op2).trans ((inAltSpace_space _ hspace).trans (storeTwin_completes rd ha hm ht)),
    storesTwin_storedTwin hs space rd _⟩

/-- Every store that completes stores the pair to the twin word at its address. -/
theorem storesTwin_of_exec {s t : Processor rw} (hs : s.wf) {i : Instr} {space : Nat} {rd : RegNum} {a : Word rw}
    (hi : StoresAt i s space rd a) (h : exec i ⟨rw, s⟩ = .next ⟨rw, t⟩) : StoresTwin s t space rd a := by
  rcases hi with ⟨rs1, op2, rfl, rfl, rfl⟩ | ⟨rs1, op2, rfl, hspace, rfl⟩
  · obtain ⟨-, h⟩ := execSttw_next h
    obtain ⟨-, -, -, rfl⟩ := storeTwin_next h
    exact storesTwin_storedTwin hs 0 rd _
  · obtain ⟨-, n, hn, h⟩ := execSttwa_next h
    obtain rfl : n = space := AltTarget.space.inj (Option.some.inj (hn.symm.trans hspace))
    obtain ⟨-, -, -, rfl⟩ := storeTwin_next h
    exact storesTwin_storedTwin hs n rd _

/-- A store of the pair R[0]-R[1] leaves 0 in the word at the lowest address. -/
theorem StoresTwin.pair_zero {s t : Processor rw} {space : Nat} {a : Word rw} (h : StoresTwin s t space 0 a) :
    wordAt t space a = 0 ∧ wordAt t space (a + 4) = (readReg s 1).extractLsb' 0 32 := by
  obtain ⟨hlow, hhigh, -⟩ := h
  exact ⟨by simpa using hlow, hhigh⟩

/-- Settles O37: R[0] reads zero as the source of a store too. -/
theorem storeOfPairZeroWritesZeroAndR1 : Obligations.StoreOfPairZeroWritesZeroAndR1 := by
  intro rw s t rs1 hs
  exact ⟨fun op2 h => (storesTwin_of_exec hs (.inl ⟨rs1, op2, rfl, rfl, rfl⟩) h).pair_zero,
    fun op2 space hspace h => (storesTwin_of_exec hs (.inr ⟨rs1, op2, rfl, hspace, rfl⟩) h).pair_zero⟩

/-- Settles O44: the load reads the two words the store left. -/
theorem twinLoadReturnsTwinStore : Obligations.TwinLoadReturnsTwinStore := by
  intro rw s t u i j space rd rd' a hs hi ht hj hu
  obtain ⟨hlow, hhigh, -⟩ := storesTwin_of_exec hs hi ht
  obtain ⟨hrd', hodd, -⟩ := loadsTwin_of_exec (exec_keeps_wf hs ht) hj hu
  exact ⟨fun h0 => by rw [hrd' h0, hlow], by rw [hodd, hhigh]⟩

/-! ## R[0] as a destination (R12) -/

/-- Settles O3: the frames of SAVE, RESTORE and JMPL with nothing in place of `rd`, and O38 with `rd = 0`. -/
theorem globalZeroReadsZero : Obligations.GlobalZeroReadsZero := by
  intro rw s g v rs1 op2
  refine ⟨rfl, rfl, fun t h => ?_, fun t h => ?_, fun t h => ?_, fun ha => ?_⟩
  · obtain ⟨hcwp, -, -, hregs⟩ := exec_save_moves h
    exact ⟨hcwp, RegsSameBut.of_zero_cons hregs⟩
  · obtain ⟨hcwp, -, -, hregs⟩ := exec_restore_moves h
    exact ⟨hcwp, RegsSameBut.of_zero_cons hregs⟩
  · obtain ⟨-, -, rfl⟩ := execJmpl_next h
    exact ⟨rfl, (link_frame s 0 _).1.of_zero_cons⟩
  · exact ((misalignedTwinWordTraps rw s 0 rs1 rfl).1 op2 ha).1

end Sys2Proof.Machine
end

section
/-! PROOFS. O10 to O12: the floating-point register file (R28 to R33). -/

namespace Sys2Proof.Machine

variable {rw : Nat}

/-! ## The views of the file (R29 to R32) -/

/-- Settles O10: each view is two halves of the view below it. -/
theorem floatViewsAlias : Obligations.FloatViewsAlias :=
  fun _ _ => ⟨fun _ => rfl, fun _ => ⟨BitVec.extractLsb'_append_eq_left, BitVec.extractLsb'_append_eq_right⟩,
    fun _ => ⟨BitVec.extractLsb'_append_eq_left, BitVec.extractLsb'_append_eq_right⟩⟩

theorem readDouble_writeDouble_same (s : Processor rw) (n : Fin 32) (v : BitVec 64) :
    readDouble (writeDouble s n v) n = v := by
  simp only [readDouble, writeDouble, writeFw_fw]
  rw [Vector.getElem_set_self, Vector.getElem_set_ne _ _ (by simp), Vector.getElem_set_self]
  exact BitVec.extractLsb'_append_extractLsb'

/-- A write of a double leaves the words outside it alone. -/
theorem writeDouble_fw_other (s : Processor rw) {n : Fin 32} (v : BitVec 64) {j : Fin 64} (h : j.val / 2 ≠ n.val) :
    (writeDouble s n v).fw[j] = s.fw[j] := by
  simp only [writeDouble, writeFw_fw, Fin.getElem_fin]
  rw [Vector.getElem_set_ne _ _ (by simp; omega), Vector.getElem_set_ne _ _ (by simp; omega)]

/-- A write of one double leaves another alone. -/
theorem readDouble_writeDouble_other (s : Processor rw) {m n : Fin 32} (v : BitVec 64) (h : m ≠ n) :
    readDouble (writeDouble s n v) m = readDouble s m := by
  have hne : m.val ≠ n.val := fun e => h (Fin.ext e)
  have h0 := writeDouble_fw_other s (n := n) v (j := ⟨2 * m.val, by omega⟩) (by simp; omega)
  have h1 := writeDouble_fw_other s (n := n) v (j := ⟨2 * m.val + 1, by omega⟩) (by simp; omega)
  simp only [Fin.getElem_fin] at h0 h1
  rw [readDouble, h0, h1, readDouble]

/-- Settles O11: a single is one word, a double two words, a quad two doubles. -/
theorem floatWritesTouchTheirWords : Obligations.FloatWritesTouchTheirWords := by
  intro rw s
  refine ⟨fun n v => ⟨?_, fun j hj => ?_⟩, fun n v => ⟨readDouble_writeDouble_same s n v, fun j => writeDouble_fw_other s v⟩,
    fun n v => ⟨?_, fun j hj => ?_⟩⟩
  · simp [readSingle, writeSingle]
  · simp only [writeSingle, writeFw_fw, Fin.getElem_fin]
    rw [Vector.getElem_set_ne _ _ hj.symm]
  · rw [readQuad, writeQuad, readDouble_writeDouble_same, readDouble_writeDouble_other _ _ (by simp),
      readDouble_writeDouble_same]
    exact BitVec.extractLsb'_append_extractLsb'
  · rw [writeQuad, writeDouble_fw_other _ _ (by simp; omega), writeDouble_fw_other _ _ (by simp; omega)]

/-! ## No instruction reads or writes the file (R33) -/

/-- The processor with another floating-point file. -/
def setFw (f : Vector Word32 64) (s : Processor rw) : Processor rw := { s with fw := f }

/-- An outcome with another floating-point file in the next state. -/
def setFwResult (f : Vector Word32 64) : Result → Result
  | .next u => .next ⟨u.rw, setFw f u.proc⟩
  | .fault r => .fault r
  | .refused r => .refused r

theorem setFwResult_ite (f : Vector Word32 64) (c : Prop) [Decidable c] (a b : Result) :
    setFwResult f (if c then a else b) = if c then setFwResult f a else setFwResult f b := apply_ite ..

section SetFw
variable (f : Vector Word32 64) (s : Processor rw)

theorem writeReg_setFw (i : RegNum) (v : Word rw) : writeReg (setFw f s) i v = setFw f (writeReg s i v) := by
  change writeSlot (setFw f s) (regSlot s i) v = setFw f (writeSlot s (regSlot s i) v)
  cases regSlot s i <;> rfl

theorem readReg_setFw (i : RegNum) : readReg (setFw f s) i = readReg s i := readSlot_congr rfl rfl _

theorem sumOf_setFw (rs1 : RegNum) (op2 : Operand2) : sumOf (setFw f s) rs1 op2 = sumOf s rs1 op2 := by
  cases op2 <;> simp only [sumOf, operand2Value, readReg_setFw]

theorem altSumOf_setFw (rs1 : RegNum) (op2 : AltOperand) : altSumOf (setFw f s) rs1 op2 = altSumOf s rs1 op2 := by
  cases op2 <;> simp only [altSumOf, altOperandValue, readReg_setFw]

theorem loadTwin_setFw (space : Nat) (rd : RegNum) (a : Word rw) :
    loadTwin space rd a (setFw f s) = setFwResult f (loadTwin space rd a s) := by
  simp only [loadTwin, setFwResult_ite, writeReg_setFw]
  rfl

theorem storeTwin_setFw (space : Nat) (rd : RegNum) (a : Word rw) :
    storeTwin space rd a (setFw f s) = setFwResult f (storeTwin space rd a s) := by
  simp only [storeTwin, setFwResult_ite, twinBytes, readReg_setFw]
  rfl

theorem inAltSpace_setFw (op2 : AltOperand) {k k' : Nat → Result} (h : ∀ n, k' n = setFwResult f (k n)) :
    inAltSpace (setFw f s) (asiOf (setFw f s) op2) k' = setFwResult f (inAltSpace s (asiOf s op2) k) := by
  have hasi : asiOf (setFw f s) op2 = asiOf s op2 := by cases op2 <;> rfl
  have htarget : altTargetOf (setFw f s) (asiOf s op2) = altTargetOf s (asiOf s op2) := rfl
  rw [hasi]
  rcases ht : altTargetOf s (asiOf s op2) with _ | ⟨n⟩ | ⟨id⟩
  · rw [inAltSpace_unlisted _ ht, inAltSpace_unlisted _ (htarget.trans ht)]; rfl
  · rw [inAltSpace_space _ ht, inAltSpace_space _ (htarget.trans ht), h]
  · rw [inAltSpace_trap _ ht, inAltSpace_trap _ (htarget.trans ht)]; rfl

end SetFw

/-- Every instruction has the same outcome with another floating-point file, and keeps that file. -/
theorem exec_setFw (f : Vector Word32 64) (i : Instr) (s : Processor rw) :
    exec i ⟨rw, setFw f s⟩ = setFwResult f (exec i ⟨rw, s⟩) := by
  cases i with
  | call d =>
    simp only [exec, execCall, setFwResult_ite, writeReg_setFw]; rfl
  | jmpl rd rs1 op2 =>
    simp only [exec, execJmpl, setFwResult_ite, sumOf_setFw, writeReg_setFw]; rfl
  | save rd rs1 op2 =>
    have hmove : advanceWindow (setFw f s) = setFw f (advanceWindow s) := rfl
    simp only [exec, execSave, setFwResult_ite, sumOf_setFw, hmove, writeReg_setFw]; rfl
  | restore rd rs1 op2 =>
    have hmove : havocWindow (retreatWindow (setFw f s)) (setFw f s).cwp = setFw f (havocWindow (retreatWindow s) s.cwp) := rfl
    simp only [exec, execRestore, setFwResult_ite, sumOf_setFw, hmove, writeReg_setFw]; rfl
  | ldtw rd rs1 op2 =>
    simp only [exec, execLdtw, setFwResult_ite, sumOf_setFw, loadTwin_setFw]; rfl
  | ldtwa rd rs1 op2 =>
    simp only [exec, execLdtwa, setFwResult_ite]
    rw [inAltSpace_setFw f s op2 fun n => by rw [altSumOf_setFw, loadTwin_setFw]]; rfl
  | sttw rd rs1 op2 =>
    simp only [exec, execSttw, setFwResult_ite, sumOf_setFw, storeTwin_setFw]; rfl
  | sttwa rd rs1 op2 =>
    simp only [exec, execSttwa, setFwResult_ite]
    rw [inAltSpace_setFw f s op2 fun n => by rw [altSumOf_setFw, storeTwin_setFw]]; rfl

/-- Settles O12: the three outcomes of `exec_setFw`. -/
theorem floatFileNeitherReadNorWritten : Obligations.FloatFileNeitherReadNorWritten := by
  intro i rw s f
  have hexec := exec_setFw f i s
  refine ⟨fun t h => ?_, fun r h => ?_, fun r h => ?_⟩
  · obtain ⟨-, -, -, -, hfw, -⟩ := exec_keeps_fixedState h
    exact ⟨by rw [h] at hexec; exact hexec, hfw⟩
  · rw [h] at hexec; exact hexec
  · rw [h] at hexec; exact hexec

end Sys2Proof.Machine
end

section
/-! PROOFS. O7, O13, O31, O48: the disabled global sets, the operand forms, and every stop of every instruction (R6, R11,
R53, R90). -/

namespace Sys2Proof.Machine

variable {rw : Nat}

/-! ## Global sets that GL does not select (R11) -/

/-- An address names no register of another global set than the enabled one. -/
theorem slotOf_ne_disabled (n c : Nat) {gl g : Nat} (h : g ≠ gl) (k : Fin 7) (i : RegNum) :
    Slot.global g k ≠ slotOf n c gl i := by
  rcases regNum_cases i with rfl | ⟨l, hi⟩ | ⟨l, hi⟩ | ⟨l, hi⟩ | ⟨l, hi⟩
  · simp
  · simp [slotOf_global l hi, h]
  · simp [slotOf_out l hi]
  · simp [slotOf_loc l hi]
  · simp [slotOf_in l hi]

/-- A register write leaves every disabled global set alone. -/
theorem readSlot_writeReg_disabled (s : Processor rw) {g : Nat} (h : g ≠ s.gl) (k : Fin 7) (i : RegNum) (v : Word rw) :
    readSlot (writeReg s i v) (.global g k) = readSlot s (.global g k) :=
  readSlot_writeReg_other s v (slotOf_ne_disabled _ _ h k i)

theorem exec_keeps_disabled {i : Instr} {s t : Processor rw} (h : exec i ⟨rw, s⟩ = .next ⟨rw, t⟩) {g : Nat} (hg : g ≠ s.gl)
    (k : Fin 7) : readSlot t (.global g k) = readSlot s (.global g k) := by
  rcases exec_next h with ⟨rd, target, -, rfl, -⟩ | ⟨rd, rs1, op2, -, -, -, rfl⟩ | ⟨rd, rs1, op2, -, -, rfl⟩ |
    ⟨rd, lo, hi, -, rfl⟩ | ⟨rd, ks, bs, -, -, rfl⟩
  · rw [readSlot_delayedJump, readSlot_writeReg_disabled s hg]
  · rw [readSlot_advancePc, readSlot_writeReg_disabled (advanceWindow s) hg, readSlot_advanceWindow]
  · rw [readSlot_advancePc, readSlot_writeReg_disabled (havocWindow (retreatWindow s) s.cwp) hg,
      readSlot_havocWindow_other _ (by simp [mem_windowSlots]), readSlot_retreatWindow]
  · rw [readSlot_advancePc, readSlot_writeReg_disabled _ (by simpa using hg), readSlot_writeReg_disabled s hg]
  · rw [readSlot_advancePc, readSlot_memory]

/-- Settles O7: only R addresses are read and written, and none names a register of a disabled set. -/
theorem disabledGlobalSetsKept : Obligations.DisabledGlobalSetsKept := by
  intro rw s g k hg
  refine ⟨fun i t h => ?_, fun j v => ⟨?_, readSlot_writeReg_disabled s hg k j v⟩⟩
  · obtain ⟨-, hgl, -⟩ := exec_keeps_fixedState h
    exact ⟨hgl, exec_keeps_disabled h hg k⟩
  · exact readSlot_writeSlot_other s v (slotOf_ne_disabled _ _ hg k j).symm

/-! ## Operands as signed integers (R53) -/

/-- Settles O13: a sign extension to a greater width keeps the integer; two zero bits below multiply it by 4. -/
theorem operandFormsSignExtend : Obligations.OperandFormsSignExtend := by
  intro rw s rs2 asi simm13 disp30 hrw
  have himm : (simm13.signExtend rw).toInt = simm13.toInt := BitVec.toInt_signExtend_of_le (by omega)
  refine ⟨rfl, rfl, himm, himm, ?_, rfl, rfl⟩
  rw [callDisplacement, BitVec.toInt_signExtend_of_le (by omega), BitVec.toInt_append_zero]
  rfl

/-! ## Every stop (R6, R95) -/

section Stops
variable {s : Processor rw} {space : Nat} {rd : RegNum} {a : Word rw}

theorem loadTwin_fault {f : Fault} (h : loadTwin space rd a s = .fault f) :
    f = .trap .memAddressNotAligned ∨ f = .stuck .dataUnmapped := by
  unfold loadTwin at h
  split_ifs at h
  · exact .inl (Host.Outcome.fault.inj h).symm
  · exact .inr (Host.Outcome.fault.inj h).symm
  · cases h

theorem storeTwin_fault {f : Fault} (h : storeTwin space rd a s = .fault f) :
    f = .trap .memAddressNotAligned ∨ f = .stuck .dataUnmapped := by
  unfold storeTwin at h
  split_ifs at h
  · exact .inl (Host.Outcome.fault.inj h).symm
  · exact .inr (Host.Outcome.fault.inj h).symm
  · cases h

theorem loadTwin_not_refused {r : Refusal} : loadTwin space rd a s ≠ .refused r := by
  unfold loadTwin
  split_ifs <;> intro h <;> cases h

theorem storeTwin_refused {r : Refusal} (h : storeTwin space rd a s = .refused r) : r = .storeToProgramText := by
  unfold storeTwin at h
  split_ifs at h
  · cases h
  · cases h
  · exact (Host.Outcome.refused.inj h).symm
  · cases h

theorem inAltSpace_fault {asi : BitVec 8} {k : Nat → Result} {f : Fault} (h : inAltSpace s asi k = .fault f) :
    (∃ id, f = .trap (.altSpaceDefined id)) ∨ ∃ n, k n = .fault f := by
  unfold inAltSpace at h
  split at h
  · cases h
  · exact .inl ⟨_, (Host.Outcome.fault.inj h).symm⟩
  · exact .inr ⟨_, h⟩

theorem inAltSpace_refused {asi : BitVec 8} {k : Nat → Result} {r : Refusal} (h : inAltSpace s asi k = .refused r) :
    r = .alternateSpace ∨ ∃ n, k n = .refused r := by
  unfold inAltSpace at h
  split at h
  · exact .inl (Host.Outcome.refused.inj h).symm
  · cases h
  · exact .inr ⟨_, h⟩

theorem execCall_not_fault {d : BitVec 30} {f : Fault} : execCall d ⟨rw, s⟩ ≠ .fault f := by
  unfold execCall
  split_ifs <;> intro h <;> cases h

theorem execCall_refused {d : BitVec 30} {r : Refusal} (h : execCall d ⟨rw, s⟩ = .refused r) :
    r = .transferInDelaySlot := by
  unfold execCall at h
  split_ifs at h
  · exact (Host.Outcome.refused.inj h).symm
  · cases h

variable {rs1 : RegNum} {op2 : Operand2} {alt : AltOperand} {f : Fault} {r : Refusal}

theorem execJmpl_fault (h : execJmpl rd rs1 op2 ⟨rw, s⟩ = .fault f) : f = .trap .memAddressNotAligned := by
  unfold execJmpl at h
  split_ifs at h
  · exact (Host.Outcome.fault.inj h).symm
  · cases h

theorem execJmpl_refused (h : execJmpl rd rs1 op2 ⟨rw, s⟩ = .refused r) : r = .transferInDelaySlot := by
  unfold execJmpl at h
  split_ifs at h
  · exact (Host.Outcome.refused.inj h).symm
  · cases h
  · cases h

theorem execSave_fault (h : execSave rd rs1 op2 ⟨rw, s⟩ = .fault f) : f = .trap .windowSpill ∨ f = .trap .cleanWindow := by
  unfold execSave at h
  split_ifs at h
  · exact .inl (Host.Outcome.fault.inj h).symm
  · exact .inr (Host.Outcome.fault.inj h).symm
  · cases h

theorem execSave_refused (h : execSave rd rs1 op2 ⟨rw, s⟩ = .refused r) : r = .inconsistentWindowState := by
  unfold execSave at h
  split_ifs at h
  · cases h
  · exact (Host.Outcome.refused.inj h).symm
  · cases h
  · cases h

theorem execRestore_fault (h : execRestore rd rs1 op2 ⟨rw, s⟩ = .fault f) : f = .trap .windowFill := by
  unfold execRestore at h
  split_ifs at h
  · exact (Host.Outcome.fault.inj h).symm
  · cases h

theorem execRestore_not_refused : execRestore rd rs1 op2 ⟨rw, s⟩ ≠ .refused r := by
  unfold execRestore
  split_ifs <;> intro h <;> cases h

theorem execLdtw_fault (h : execLdtw rd rs1 op2 ⟨rw, s⟩ = .fault f) :
    f = .trap .illegalInstruction ∨ f = .trap .memAddressNotAligned ∨ f = .stuck .dataUnmapped := by
  unfold execLdtw at h
  split_ifs at h
  · exact .inl (Host.Outcome.fault.inj h).symm
  · exact .inr (loadTwin_fault h)

theorem execLdtw_not_refused : execLdtw rd rs1 op2 ⟨rw, s⟩ ≠ .refused r := by
  unfold execLdtw
  split_ifs
  · intro h; cases h
  · exact loadTwin_not_refused

theorem execSttw_fault (h : execSttw rd rs1 op2 ⟨rw, s⟩ = .fault f) :
    f = .trap .illegalInstruction ∨ f = .trap .memAddressNotAligned ∨ f = .stuck .dataUnmapped := by
  unfold execSttw at h
  split_ifs at h
  · exact .inl (Host.Outcome.fault.inj h).symm
  · exact .inr (storeTwin_fault h)

theorem execSttw_refused (h : execSttw rd rs1 op2 ⟨rw, s⟩ = .refused r) : r = .storeToProgramText := by
  unfold execSttw at h
  split_ifs at h
  · cases h
  · exact storeTwin_refused h

/-- The A forms stop as an access in the space selected does, or with a trap of `altSpace`'s own. -/
theorem inAltSpace_access_fault {asi : BitVec 8} {k : Nat → Result}
    (hk : ∀ n, k n = .fault f → f = .trap .memAddressNotAligned ∨ f = .stuck .dataUnmapped)
    (h : inAltSpace s asi k = .fault f) :
    f = .trap .memAddressNotAligned ∨ f = .stuck .dataUnmapped ∨ ∃ id, f = .trap (.altSpaceDefined id) := by
  rcases inAltSpace_fault h with hid | ⟨n, hn⟩
  · exact .inr (.inr hid)
  · exact or_assoc.mp (.inl (hk n hn))

theorem execLdtwa_fault (h : execLdtwa rd rs1 alt ⟨rw, s⟩ = .fault f) :
    f = .trap .illegalInstruction ∨ f = .trap .memAddressNotAligned ∨ f = .stuck .dataUnmapped ∨
      ∃ id, f = .trap (.altSpaceDefined id) := by
  unfold execLdtwa at h
  split_ifs at h
  · exact .inl (Host.Outcome.fault.inj h).symm
  · exact .inr (inAltSpace_access_fault (fun _ => loadTwin_fault) h)

theorem execSttwa_fault (h : execSttwa rd rs1 alt ⟨rw, s⟩ = .fault f) :
    f = .trap .illegalInstruction ∨ f = .trap .memAddressNotAligned ∨ f = .stuck .dataUnmapped ∨
      ∃ id, f = .trap (.altSpaceDefined id) := by
  unfold execSttwa at h
  split_ifs at h
  · exact .inl (Host.Outcome.fault.inj h).symm
  · exact .inr (inAltSpace_access_fault (fun _ => storeTwin_fault) h)

theorem execLdtwa_refused (h : execLdtwa rd rs1 alt ⟨rw, s⟩ = .refused r) : r = .alternateSpace := by
  unfold execLdtwa at h
  split_ifs at h
  · cases h
  · rcases inAltSpace_refused h with hr | ⟨n, hn⟩
    · exact hr
    · exact absurd hn loadTwin_not_refused

theorem execSttwa_refused (h : execSttwa rd rs1 alt ⟨rw, s⟩ = .refused r) :
    r = .alternateSpace ∨ r = .storeToProgramText := by
  unfold execSttwa at h
  split_ifs at h
  · cases h
  · rcases inAltSpace_refused h with hr | ⟨n, hn⟩
    · exact .inl hr
    · exact .inr (storeTwin_refused hn)

end Stops

/-- Settles O48: the tests of each meaning, and of the access it ends in. -/
theorem stopsOfEachInstruction : Obligations.StopsOfEachInstruction := by
  intro rw s
  refine ⟨fun i f h => ?_, fun i r h => ?_⟩
  · cases i with
    | call d => exact execCall_not_fault h
    | jmpl rd rs1 op2 => exact execJmpl_fault h
    | save rd rs1 op2 => exact execSave_fault h
    | restore rd rs1 op2 => exact execRestore_fault h
    | ldtw rd rs1 op2 => exact execLdtw_fault h
    | ldtwa rd rs1 op2 => exact execLdtwa_fault h
    | sttw rd rs1 op2 => exact execSttw_fault h
    | sttwa rd rs1 op2 => exact execSttwa_fault h
  · cases i with
    | call d => exact execCall_refused h
    | jmpl rd rs1 op2 => exact execJmpl_refused h
    | save rd rs1 op2 => exact execSave_refused h
    | restore rd rs1 op2 => exact execRestore_not_refused h
    | ldtw rd rs1 op2 => exact execLdtw_not_refused h
    | ldtwa rd rs1 op2 => exact execLdtwa_refused h
    | sttw rd rs1 op2 => exact execSttw_refused h
    | sttwa rd rs1 op2 => exact execSttwa_refused h

/-! ## illegal_instruction (R90, R104) -/

theorem evenPair_eq_false_iff (rd : RegNum) : RegNum.evenPair rd = false ↔ oddPair rd = true := by
  simp [RegNum.evenPair, oddPair]

theorem evenPair_iff (rd : RegNum) : RegNum.evenPair rd = true ↔ rd.toNat % 2 = 0 := by
  rw [← oddPair_eq_false_iff]
  simp [RegNum.evenPair, oddPair]

/-- An access in a space, or the choice of one, is no illegal instruction. -/
theorem inAltSpace_not_illegal {s : Processor rw} {asi : BitVec 8} {k : Nat → Result}
    (hk : ∀ n f, k n = .fault f → f = .trap .memAddressNotAligned ∨ f = .stuck .dataUnmapped) :
    inAltSpace s asi k ≠ .fault (.trap .illegalInstruction) := by
  intro h
  simpa using inAltSpace_access_fault (fun n => hk n _) h

/-- An instruction of legal form raises no illegal_instruction: an even pair leaves the traps of the access. -/
theorem exec_not_illegal_of_wf {i : Instr} (hi : i.wf = true) (s : Processor rw) :
    exec i ⟨rw, s⟩ ≠ .fault (.trap .illegalInstruction) := by
  intro h
  cases i with
  | call d => exact execCall_not_fault h
  | jmpl rd rs1 op2 => simpa using execJmpl_fault h
  | save rd rs1 op2 => simpa using execSave_fault h
  | restore rd rs1 op2 => simpa using execRestore_fault h
  | ldtw rd rs1 op2 =>
    rw [exec_ldtw_even rs1 ((evenPair_iff rd).mp hi)] at h
    simpa using loadTwin_fault h
  | ldtwa rd rs1 op2 =>
    rw [exec_ldtwa_even rs1 ((evenPair_iff rd).mp hi)] at h
    exact inAltSpace_not_illegal (fun _ _ => loadTwin_fault) h
  | sttw rd rs1 op2 =>
    rw [exec_sttw_even rs1 ((evenPair_iff rd).mp hi)] at h
    simpa using storeTwin_fault h
  | sttwa rd rs1 op2 =>
    rw [exec_sttwa_even rs1 ((evenPair_iff rd).mp hi)] at h
    exact inAltSpace_not_illegal (fun _ _ => storeTwin_fault) h

/-- What `Instr.wf` refuses traps: it is a twin-word instruction whose pair number is odd. -/
theorem exec_illegal_of_not_wf {i : Instr} (hi : i.wf = false) (s : State) :
    exec i s = .fault (.trap .illegalInstruction) := by
  cases i with
  | call d => cases hi
  | jmpl rd rs1 op2 => cases hi
  | save rd rs1 op2 => cases hi
  | restore rd rs1 op2 => cases hi
  | ldtw rd rs1 op2 => exact execLdtw_of_oddPair ((evenPair_eq_false_iff rd).mp hi) rs1 op2 s
  | ldtwa rd rs1 op2 => exact execLdtwa_of_oddPair ((evenPair_eq_false_iff rd).mp hi) rs1 op2 s
  | sttw rd rs1 op2 => exact execSttw_of_oddPair ((evenPair_eq_false_iff rd).mp hi) rs1 op2 s
  | sttwa rd rs1 op2 => exact execSttwa_of_oddPair ((evenPair_eq_false_iff rd).mp hi) rs1 op2 s

/-- Settles O31: the two directions, an instruction of legal form and one of illegal form. -/
theorem illegalInstructionOnlyForOddPairs : Obligations.IllegalInstructionOnlyForOddPairs := by
  intro i rw s
  refine ⟨fun h => ?_, fun hi => exec_illegal_of_not_wf hi _⟩
  exact Bool.eq_false_iff.mpr fun hi => exec_not_illegal_of_wf hi s h

end Sys2Proof.Machine
end

section
/-! PROOFS. O45 to O47, O54 to O56: the step, the state called reset and the end of a run (R6, R42, R44, R100, R107). -/

namespace Sys2Proof.Machine

variable {rw : Nat}

/-! ## The cases of a fetch, in the order they are tested (R51, R107, R44) -/

theorem pc_low_bits_iff (s : Processor rw) : s.pc.extractLsb' 0 2 = 0 ↔ s.pc.toNat % 4 = 0 := by
  rw [← alignedTarget_iff, alignedTarget, beq_iff_eq]

section Fetch
variable {s : Processor rw}

theorem fetchWord_misaligned (h : s.pc.toNat % 4 ≠ 0) : fetchWord s = .error .fetchMisaligned :=
  if_pos (mt (pc_low_bits_iff s).mp h)

theorem fetchWord_outsideText (h : s.pc.toNat % 4 = 0) (ht : (fetchKeys s).all (inRegions s.cfg.text) = false) :
    fetchWord s = .error .fetchOutsideText := by
  rw [fetchWord, if_neg (not_not.mpr ((pc_low_bits_iff s).mpr h)), ht]; rfl

theorem fetchWord_unmapped (h : s.pc.toNat % 4 = 0) (ht : (fetchKeys s).all (inRegions s.cfg.text) = true)
    (hm : isMapped s (fetchKeys s) = false) : fetchWord s = .error .fetchUnmapped := by
  rw [fetchWord, if_neg (not_not.mpr ((pc_low_bits_iff s).mpr h)), ht, hm]; rfl

theorem fetchWord_completes (h : s.pc.toNat % 4 = 0) (ht : (fetchKeys s).all (inRegions s.cfg.text) = true)
    (hm : isMapped s (fetchKeys s) = true) : fetchWord s = .ok (word32 true (memRead s.mem (fetchKeys s))) := by
  rw [fetchWord, if_neg (not_not.mpr ((pc_low_bits_iff s).mpr h)), ht, hm]; rfl

/-! ## The cases of a step (R6, R55) -/

theorem step_of_fetch_error {r : StuckReason} (h : fetchWord s = .error r) : step ⟨rw, s⟩ = .fault (.stuck r) := by
  rw [step, h]; rfl

theorem step_of_decode_error {w : Word32} {e : DecodeReject} (h : fetchWord s = .ok w) (hw : decodeWord w = .error e) :
    step ⟨rw, s⟩ = .refused (refusalOf e) := by
  simp only [step, h, hw]

theorem step_of_decode_ok {w : Word32} {i : Instr} (h : fetchWord s = .ok w) (hw : decodeWord w = .ok i) :
    step ⟨rw, s⟩ = exec i ⟨rw, s⟩ := by
  simp only [step, h, hw]

end Fetch

/-- Four bytes decode as the big-endian word they are. -/
theorem decodeWord_of_decodeBytes {b0 b1 b2 b3 : Byte} {i : Instr} (h : decodeBytes [b0, b1, b2, b3] = .ok (i, [])) :
    decodeWord (word32 true [b0, b1, b2, b3]) = .ok i := by
  change decodeWord (bigEndianWord b0 b1 b2 b3) = .ok i
  rw [decodeBytes] at h
  split at h
  · rename_i j hj
    rw [hj, (Prod.mk.inj (Except.ok.inj h)).1]
  · cases h

/-- Settles O45: the fetch completes, and its word is that of the four bytes. -/
theorem stepRunsDecodedInstruction : Obligations.StepRunsDecodedInstruction := by
  intro rw s i hpc ht hm hdecode
  exact step_of_decode_ok (fetchWord_completes hpc ht hm) (decodeWord_of_decodeBytes hdecode)

/-- Settles O46: the three errors of a fetch and the two of a fetched word. -/
theorem stepWithoutInstructionStops : Obligations.StepWithoutInstructionStops := by
  intro rw s
  exact ⟨fun h => step_of_fetch_error (fetchWord_misaligned h),
    fun h ht => step_of_fetch_error (fetchWord_outsideText h ht),
    fun h ht hm => step_of_fetch_error (fetchWord_unmapped h ht hm),
    fun _ => step_of_decode_error, fun _ => step_of_decode_error⟩

/-! ## An instruction placed at `pc` (log entry 22) -/

/-- The four bytes of an aligned word do not wrap around: their keys follow one another. -/
theorem byteKey_add_of_aligned (hrw : 32 ≤ rw) {a : Word rw} (ha : a.toNat % 4 = 0) {j : Nat} (hj : j < 4) :
    byteKey 0 (a + BitVec.ofNat rw j) = byteKey 0 a + j := by
  have hdvd : 4 ∣ 2 ^ rw := pow_dvd_pow 2 (show 2 ≤ rw by omega)
  have hlt := a.isLt
  have hnowrap : a.toNat + j < 2 ^ rw := by omega
  rw [byteKey, BitVec.toNat_add, BitVec.toNat_ofNat, Nat.mod_eq_of_lt (show j < 2 ^ rw by omega),
    Nat.mod_eq_of_lt hnowrap, byteKey]
  omega

/-- The regions `coverWord` gives hold the four bytes. -/
theorem coverWord_covers (hrw : 32 ≤ rw) (rs : List Region) {a : Word rw} (ha : a.toNat % 4 = 0) :
    (accessKeys 0 a 4).all (inRegions (coverWord rs a)) = true := by
  unfold coverWord
  split
  · assumption
  · refine List.all_eq_true.mpr fun k hk => ?_
    obtain ⟨j, hj, rfl⟩ := mem_accessKeys.mp hk
    simp [inRegions, byteKey_add_of_aligned hrw ha hj, hj]

/-- The fetch finds the word placed. -/
theorem fetchWord_placeWord (hrw : 32 ≤ rw) {s : Processor rw} (hmem : Memory.wf s.mem = true) (hpc : s.pc.toNat % 4 = 0)
    (w : Word32) : fetchWord (placeWord s w) = .ok w := by
  have hsize : 4 ≤ 2 ^ rw := Nat.le_of_dvd (Nat.two_pow_pos rw) (pow_dvd_pow 2 (show 2 ≤ rw by omega))
  have hread : memRead (placeWord s w).mem (fetchKeys (placeWord s w)) = bigEndianBytes w :=
    memRead_memWrite hmem (accessKeys_nodup 0 s.pc hsize) rfl
  rw [fetchWord_completes (s := placeWord s w) hpc (coverWord_covers hrw s.cfg.text hpc)
    (coverWord_covers hrw s.cfg.mapped hpc), hread]
  exact congrArg _ (word32_bytes32 true w)

/-- Settles O47: the word placed is fetched, and decoding undoes encoding (O14). -/
theorem placedInstructionRuns : Obligations.PlacedInstructionRuns := by
  intro rw s i hrw hmem hpc
  have hword : BitVec.ofNat 32 ((encode i).toNat % 2 ^ 32) = encode i := by
    rw [Nat.mod_eq_of_lt (encode i).isLt, BitVec.ofNat_toNat, BitVec.setWidth_eq]
  rw [State.withFetchWord, hword]
  exact step_of_decode_ok (fetchWord_placeWord hrw hmem hpc _) (decodeWord_encode i)

/-! ## The state called reset (R100) -/

theorem launch_reset : Launch State.reset.proc := by
  refine ⟨by decide, by decide, by decide, fun k hk => ?_⟩
  cases hk

/-- Settles O54: each premise evaluated, and no program text to be mapped. -/
theorem resetIsALaunchState : Obligations.ResetIsALaunchState := ⟨launch_reset, launch_reset, rfl⟩

/-- Every R register is zero in the state called reset. -/
theorem readSlot_reset (sl : Slot) : readSlot Processor.reset sl = 0 := by
  cases sl with
  | zero => rfl
  | global g k =>
    simp only [readSlot, Processor.reset, List.getElem?_replicate]
    split_ifs <;> simp
  | out w k =>
    simp only [readSlot, Processor.reset, List.getElem?_replicate]
    split_ifs <;> simp
  | loc w k =>
    simp only [readSlot, Processor.reset, List.getElem?_replicate]
    split_ifs <;> simp

/-- Settles O55: field by field. -/
theorem resetValues : Obligations.ResetValues :=
  ⟨rfl, rfl, rfl, rfl, rfl, rfl, rfl, rfl, rfl, rfl, rfl, rfl, rfl, rfl, rfl, rfl, rfl, rfl, rfl, rfl, readSlot_reset,
    fun _ => Vector.getElem_replicate _⟩

/-! ## The end of a run (R107) -/

theorem atEnd_iff (endPc : Nat) (s : State) :
    atEnd endPc s = true ↔ s.proc.pc.toNat = endPc ∧ s.proc.npc = s.proc.pc + 4 := by
  simp [atEnd]

/-- A run started at its end is over. -/
theorem runTo_of_atEnd {endPc : Nat} {s : State} (h : atEnd endPc s = true) (n : Nat) : runTo endPc n s = .completed s := by
  cases n <;> simp [runTo, h]

/-- Completion is at the end address, however many steps it takes. -/
theorem atEnd_of_completed {endPc n : Nat} {s t : State} (h : runTo endPc n s = .completed t) : atEnd endPc t = true := by
  induction n generalizing s with
  | zero =>
    rw [runTo] at h
    split_ifs at h with hs
    rwa [← RunEnd.completed.inj h]
  | succ n ih =>
    rw [runTo] at h
    split_ifs at h with hs
    · rwa [← RunEnd.completed.inj h]
    · split at h
      · exact ih h
      · cases h
      · cases h

/-- Settles O56: before its end a run is the step's outcome. -/
theorem runCompletesOnlyAtEndPc : Obligations.RunCompletesOnlyAtEndPc := by
  intro endPc n s
  refine ⟨fun t h => (atEnd_iff endPc t).mp (atEnd_of_completed h),
    fun hpc hnpc => runTo_of_atEnd ((atEnd_iff endPc s).mpr ⟨hpc, hnpc⟩) n, fun f hs h => ?_, fun r hs h => ?_⟩
  · rw [← atEnd_iff] at hs
    simp only [runTo, if_neg hs, h]
  · rw [← atEnd_iff] at hs
    simp only [runTo, if_neg hs, h]

end Sys2Proof.Machine
end

section
/-! PROOFS. O57 to O59: the stack view reads, writes, pushes and pops as the finite machine does (R26). -/

namespace Sys2Proof.Machine

variable {rw : Nat}

/-! ## The windows below a window -/

/-- The window `d + 1` below, without the recursion. -/
theorem windowBelow_eq_mod {n c d : Nat} (h : d < n) : windowBelow n c d = (c + (n - 1 - d)) % n := by
  induction d generalizing c with
  | zero => rfl
  | succ d ih =>
    rw [windowBelow, ih (by omega), prevWindow, Nat.mod_add_mod,
      show c + (n - 1) + (n - 1 - d) = c + (n - 1 - (d + 1)) + n by omega, Nat.add_mod_right]

/-- Going down fewer than `N` windows does not come back to where it began. -/
theorem windowBelow_ne {n c d : Nat} (hc : c < n) (h : d + 1 < n) : windowBelow n c d ≠ c := by
  rw [windowBelow_eq_mod (by omega)]
  intro e
  have hmod : c + (n - 1 - d) ≡ c + 0 [MOD n] := by rw [Nat.ModEq, e, Nat.add_zero, Nat.mod_eq_of_lt hc]
  have hzero := Nat.ModEq.add_left_cancel' c hmod
  rw [Nat.ModEq, Nat.zero_mod, Nat.mod_eq_of_lt (by omega)] at hzero
  omega

/-! ## The frames of the view -/

/-- The `d` windows below `w`: the frames of the view under that of `w`. -/
def framesBelow (s : Processor rw) (w d : Nat) : List (WindowRegs rw) :=
  (List.range d).map fun j => windowRegs s (windowBelow s.cfg.nWindows w j)

theorem framesBelow_succ (s : Processor rw) (w d : Nat) : framesBelow s w (d + 1) =
    windowRegs s (prevWindow s.cfg.nWindows w) :: framesBelow s (prevWindow s.cfg.nWindows w) d := by
  simp only [framesBelow, List.range_succ_eq_map, List.map_cons, List.map_map]
  rfl

theorem framesFrom_eq (s : Processor rw) (w d : Nat) : framesFrom s w d = windowRegs s w :: framesBelow s w d := by
  induction d generalizing w with
  | zero => rfl
  | succ d ih => rw [framesFrom, ih, framesBelow_succ]

/-- The view, its frames written out: the current window and those below. -/
theorem stackView_eq (s : Processor rw) : stackView s =
    { globals := s.globals
      gl := s.gl
      frames := windowRegs s s.cwp :: framesBelow s s.cwp s.canRestore
      baseIns := (windowRegs s (windowBelow s.cfg.nWindows s.cwp s.canRestore)).outs } := by
  rw [stackView, framesFrom_eq]

/-- The frames depend on the registers of their windows only. -/
theorem framesBelow_congr {s t : Processor rw} (hn : t.cfg.nWindows = s.cfg.nWindows) {w d : Nat}
    (h : ∀ j < d, windowRegs t (windowBelow s.cfg.nWindows w j) = windowRegs s (windowBelow s.cfg.nWindows w j)) :
    framesBelow t w d = framesBelow s w d := by
  rw [framesBelow, hn]
  exact List.map_congr_left fun j hj => h j (List.mem_range.mp hj)

/-- The ins of the current frame are the outs of the window below, whether it is a frame of the view or not. -/
theorem stackIns_stackView (s : Processor rw) :
    stackIns (stackView s) = (windowRegs s (prevWindow s.cfg.nWindows s.cwp)).outs := by
  rw [stackView_eq, stackIns]
  cases s.canRestore with
  | zero => rfl
  | succ d => rw [framesBelow_succ]

/-! ## What the view reads -/

theorem readSlot_out_eq_windowRegs (s : Processor rw) (w : Nat) (k : Fin 8) :
    readSlot s (.out w k) = (windowRegs s w).outs[k] := by
  cases h : s.windows[w]? with
  | none => simp only [readSlot, windowRegs, h, Fin.getElem_fin, Vector.getElem_replicate]
  | some r => simp only [readSlot, windowRegs, h]

theorem readSlot_loc_eq_windowRegs (s : Processor rw) (w : Nat) (k : Fin 8) :
    readSlot s (.loc w k) = (windowRegs s w).locals[k] := by
  cases h : s.windows[w]? with
  | none => simp only [readSlot, windowRegs, h, Fin.getElem_fin, Vector.getElem_replicate]
  | some r => simp only [readSlot, windowRegs, h]

theorem stackRead_stackView (s : Processor rw) (i : RegNum) : stackRead (stackView s) i = readReg s i := by
  rw [readReg, regSlot]
  rcases regNum_cases i with rfl | ⟨k, h⟩ | ⟨k, h⟩ | ⟨k, h⟩ | ⟨k, h⟩
  · rfl
  · rw [stackRead, slotOf_global k h, slotOf_global k h]
    rfl
  · rw [stackRead, slotOf_out k h, slotOf_out k h, readSlot_out_eq_windowRegs, stackView_eq]
    exact if_pos (by omega)
  · rw [stackRead, slotOf_loc k h, slotOf_loc k h, readSlot_loc_eq_windowRegs, stackView_eq]
  · rw [stackRead, slotOf_in k h, slotOf_in k h, readSlot_out_eq_windowRegs, ← stackIns_stackView]
    exact if_neg (by omega)

/-! ## What the view writes -/

/-- The processor with window `w` changed by `f`. -/
def modifyWindow (s : Processor rw) (w : Nat) (f : WindowRegs rw → WindowRegs rw) : Processor rw :=
  { s with windows := s.windows.modify w f }

/-- A window with another value in one out register. -/
def setOut (k : Fin 8) (v : Word rw) (r : WindowRegs rw) : WindowRegs rw := { r with outs := r.outs.set k v }

section Modify
variable (s : Processor rw) (w : Nat) (f : WindowRegs rw → WindowRegs rw)

@[simp] theorem modifyWindow_cfg : (modifyWindow s w f).cfg = s.cfg := rfl
@[simp] theorem modifyWindow_globals : (modifyWindow s w f).globals = s.globals := rfl
@[simp] theorem modifyWindow_gl : (modifyWindow s w f).gl = s.gl := rfl
@[simp] theorem modifyWindow_cwp : (modifyWindow s w f).cwp = s.cwp := rfl
@[simp] theorem modifyWindow_canRestore : (modifyWindow s w f).canRestore = s.canRestore := rfl

theorem windowRegs_modifyWindow_same {s : Processor rw} {w : Nat} (hw : w < s.windows.length) :
    windowRegs (modifyWindow s w f) w = f (windowRegs s w) := by
  simp [windowRegs, modifyWindow, hw]

theorem windowRegs_modifyWindow_other {w w' : Nat} (h : w' ≠ w) :
    windowRegs (modifyWindow s w f) w' = windowRegs s w' := by
  simp [windowRegs, modifyWindow, h.symm]

/-- Windows below the changed one, fewer than `N` of them, keep their registers. -/
theorem framesBelow_modifyWindow {w d : Nat} (hw : w < s.cfg.nWindows) (hd : d < s.cfg.nWindows) :
    framesBelow (modifyWindow s w f) w d = framesBelow s w d :=
  framesBelow_congr (by simp) fun j hj =>
    windowRegs_modifyWindow_other s f (windowBelow_ne hw (by omega))

end Modify

/-- A change of the current window is one of the current frame. -/
theorem stackView_modifyWindow_top {s : Processor rw} (hs : s.wf) (hdepth : s.canRestore + 2 ≤ s.cfg.nWindows)
    (f : WindowRegs rw → WindowRegs rw) : stackView (modifyWindow s s.cwp f) = stackTop (stackView s) f := by
  obtain ⟨-, -, hw, hc, -⟩ := hs
  rw [stackView_eq, stackView_eq, modifyWindow_canRestore, modifyWindow_cwp, framesBelow_modifyWindow s f hc (by omega),
    windowRegs_modifyWindow_same f (hw ▸ hc), modifyWindow_cfg,
    windowRegs_modifyWindow_other s f (windowBelow_ne hc (by omega))]
  rfl

/-- A change of the outs of the window below is one of the ins of the current frame. -/
theorem stackView_modifyWindow_below {s : Processor rw} (hs : s.wf) (hdepth : s.canRestore + 2 ≤ s.cfg.nWindows)
    (k : Fin 8) (v : Word rw) :
    stackView (modifyWindow s (prevWindow s.cfg.nWindows s.cwp) (setOut k v)) = stackWriteIn (stackView s) k v := by
  obtain ⟨⟨-, hn, -⟩, -, hw, hc, -⟩ := hs
  have hp : prevWindow s.cfg.nWindows s.cwp < s.cfg.nWindows := prevWindow_lt _ (by omega)
  have hsame := windowRegs_modifyWindow_same (s := s) (w := prevWindow s.cfg.nWindows s.cwp) (setOut k v) (by omega)
  rw [stackView_eq, stackView_eq, modifyWindow_canRestore, modifyWindow_cwp, modifyWindow_cfg,
    windowRegs_modifyWindow_other s _ (prevWindow_ne hc (by omega)).symm]
  rcases hd : s.canRestore with _ | d
  · rw [windowBelow, hsame]
    rfl
  · rw [framesBelow_succ, framesBelow_succ, modifyWindow_cfg, hsame, framesBelow_modifyWindow s _ hp (by omega), windowBelow,
      windowRegs_modifyWindow_other s _ (windowBelow_ne hp (by omega))]
    rfl

theorem stackView_writeReg {s : Processor rw} (hs : s.wf) (hdepth : s.canRestore + 2 ≤ s.cfg.nWindows) (i : RegNum)
    (v : Word rw) : stackView (writeReg s i v) = stackWrite (stackView s) i v := by
  rw [writeReg, regSlot]
  rcases regNum_cases i with rfl | ⟨k, h⟩ | ⟨k, h⟩ | ⟨k, h⟩ | ⟨k, h⟩
  · rfl
  · rw [stackWrite, slotOf_global k h, slotOf_global k h, stackView_eq, stackView_eq]
    rfl
  · rw [stackWrite, slotOf_out k h, slotOf_out k h]
    exact (stackView_modifyWindow_top hs hdepth (setOut k v)).trans (if_pos (by omega)).symm
  · rw [stackWrite, slotOf_loc k h, slotOf_loc k h]
    exact stackView_modifyWindow_top hs hdepth fun r => { r with locals := r.locals.set k v }
  · rw [stackWrite, slotOf_in k h, slotOf_in k h]
    exact (stackView_modifyWindow_below hs hdepth k v).trans (if_neg (by omega)).symm

/-- Settles O57: each group of addresses is a group of the view. -/
theorem stackViewReadsAndWrites : Obligations.StackViewReadsAndWrites :=
  fun _ s i v hs hdepth => ⟨stackRead_stackView s i, stackView_writeReg hs hdepth i v⟩

/-! ## SAVE pushes, RESTORE pops -/

@[simp] theorem stackView_advancePc (s : Processor rw) : stackView (advancePc s) = stackView s := by
  rw [stackView_eq, stackView_eq]
  rfl

/-- SAVE's move puts the next window on top of the frames. -/
theorem stackView_advanceWindow {s : Processor rw} (hc : s.cwp < s.cfg.nWindows) : stackView (advanceWindow s) =
    { stackView s with
      frames := windowRegs s (nextWindow s.cfg.nWindows s.cwp) :: (stackView s).frames } := by
  have hback := prevWindow_nextWindow hc
  rw [stackView_eq, stackView_eq, advanceWindow_canRestore, framesBelow_succ, windowBelow, advanceWindow_cfg,
    advanceWindow_cwp, hback]
  rfl

/-- Settles O58: the move pushes a window as it stands, and the write is that of O57 in the new window. -/
theorem savePushesAFrame : Obligations.SavePushesAFrame := by
  intro rw s t rd rs1 op2 hs hsum h
  obtain ⟨-, -, -, hc, -⟩ := id hs
  obtain ⟨hcan, -, rfl⟩ := execSave_next h
  have hdepth : (advanceWindow s).canRestore + 2 ≤ (advanceWindow s).cfg.nWindows := by
    unfold WindowStateConsistent at hsum
    simp
    omega
  refine ⟨windowRegs s (nextWindow s.cfg.nWindows s.cwp), ?_⟩
  rw [stackView_advancePc, stackView_writeReg (wf_advanceWindow hs) hdepth, stackView_advanceWindow hc]
  rfl

theorem windowRegs_havocWindow_other (s : Processor rw) {w w' : Nat} (h : w' ≠ w) :
    windowRegs (havocWindow s w) w' = windowRegs s w' := windowRegs_modifyWindow_other s _ h

/-- RESTORE's move and draws take the current window off the frames: the window drawn is none of those left. -/
theorem stackView_havocWindow_retreatWindow {s : Processor rw} (hc : s.cwp < s.cfg.nWindows) {d : Nat}
    (hd : s.canRestore = d + 1) (hdepth : d + 3 ≤ s.cfg.nWindows) : stackView (havocWindow (retreatWindow s) s.cwp) =
      { stackView s with
        frames := windowRegs s (prevWindow s.cfg.nWindows s.cwp) :: framesBelow s (prevWindow s.cfg.nWindows s.cwp) d } := by
  have hkept {j : Nat} (h : j + 1 < s.cfg.nWindows) : windowRegs (havocWindow (retreatWindow s) s.cwp)
      (windowBelow s.cfg.nWindows s.cwp j) = windowRegs s (windowBelow s.cfg.nWindows s.cwp j) :=
    windowRegs_havocWindow_other _ (windowBelow_ne hc h)
  have htop : windowRegs (havocWindow (retreatWindow s) s.cwp) (prevWindow s.cfg.nWindows s.cwp) =
      windowRegs s (prevWindow s.cfg.nWindows s.cwp) := hkept (j := 0) (by omega)
  have hframes : framesBelow (havocWindow (retreatWindow s) s.cwp) (prevWindow s.cfg.nWindows s.cwp) d =
      framesBelow s (prevWindow s.cfg.nWindows s.cwp) d :=
    framesBelow_congr (by simp) fun j hj => hkept (j := j + 1) (by omega)
  have hbase := hkept (j := d + 1) (by omega)
  rw [stackView_eq, stackView_eq, hd, ← hbase, ← htop, ← hframes, havocWindow_canRestore, retreatWindow_canRestore, hd]
  rfl

/-- Settles O59: the frame below becomes the current one, and the write is that of O57 in it; with CANRESTORE 0 there is
none. -/
theorem restorePopsAFrame : Obligations.RestorePopsAFrame := by
  intro rw s t rd rs1 op2 hs hsum
  obtain ⟨⟨-, hn, -⟩, -, -, hc, -⟩ := id hs
  unfold WindowStateConsistent at hsum
  rcases hd : s.canRestore with _ | d
  · refine ⟨fun h => absurd hd (execRestore_next h).1, fun _ => ?_⟩
    rw [stackRestore, stackView_eq, hd]
    rfl
  · refine ⟨fun h => ?_, fun h => ?_⟩
    · obtain ⟨-, rfl⟩ := execRestore_next h
      rw [stackView_advancePc, stackView_writeReg (wf_havocWindow_retreatWindow hs) (by simp; omega),
        stackView_havocWindow_retreatWindow hc hd (by omega), stackView_eq, hd, framesBelow_succ]
      rfl
    · rw [exec_restore_of_ready rd rs1 op2 (by omega)] at h
      cases h

end Sys2Proof.Machine
end
